-- ==== Sys2Proof/Word.lean ====
section
/-! DEFINITION. The word types of the core: bytes, 16-bit instruction words, 12-bit addresses and 4-bit register
numbers (spec 00_scope.md R8 to R10). Every value is unsigned. -/

namespace Sys2Proof

/-- One byte: a general register, a timer, a memory cell (R21, R32, R33, R50). -/
abbrev Byte := BitVec 8

/-- One 16-bit instruction word, or the key mask (R70, R34). -/
abbrev Word := BitVec 16

/-- One 12-bit address: the program counter, the index register, a stack entry (R25, R30, R31). -/
abbrev Addr := BitVec 12

/-- One 4-bit register number; every value names exactly one of `V0` to `VF` (R21, R72). -/
abbrev RegNum := BitVec 4

/-- Register 15, `VF`, the flag register (R22, R37). -/
abbrev vf : RegNum := 15#4

/-- The number of bytes of memory, `MEM_SIZE` (R7, R50). -/
abbrev memSize : Nat := 4096

/-- The width and the height of the display, `DISP_W` and `DISP_H` (R7, R35). -/
abbrev dispW : Nat := 64
abbrev dispH : Nat := 32

end Sys2Proof
end

