-- ==== Sys2Proof/Config.lean ====
section
/-! DEFINITION. What the spec leaves open for good: the OPEN parameter `DRAW_COORD_READ` (R185, D4) and the free draws
of `CXNN` (R14, R141, D8). Both are constants with no body, so nothing proved of the model rests on a value of them.
The parameters that the spec gives a default (`FONT`, `STACK_CAPACITY`) are in Machine/Params.lean. -/

namespace Sys2Proof

/-- The three readings of when `DXYN` reads its coordinate registers (R185). -/
inductive DrawCoordRead where
  /-- `V[X]` and `V[Y]` are read once, before `VF` is cleared. -/
  | beforeClear
  /-- They are read once, just after `VF` is cleared. -/
  | afterClear
  /-- They are read at each pixel. -/
  | live
  deriving DecidableEq, Repr, Inhabited

/-- `DRAW_COORD_READ`: OPEN in the spec (R7, R185, D4), so a free parameter here. It matters only to a `DXYN` whose
X or Y is 15. Safe: a claim holds for every reading. Log entry 4. -/
opaque Config.drawCoordRead : DrawCoordRead

/-- `rand8()`: the byte that draw number `k` gives (R14, R141, D8). No law constrains it. Safe: a claim holds for
every draw. Log entry 5. -/
opaque Config.rand8 (k : Nat) : Byte

end Sys2Proof
end

