-- ==== Sys2Proof/Syntax.lean ====
section
/-! DEFINITION. The instructions: one constructor per row of spec/opcode_table.json, carrying the fields that row names
(R85), and one for the no-op fallback, carrying the raw word. The table's name for each stands in its docstring. -/

namespace Sys2Proof

/-- The 35 instructions of the core and the no-op fallback (R2, R81, R85). -/
inductive Instr where
  /-- `00E0`, clear display (R180). -/
  | cls
  /-- `00EE`, return from subroutine (R102). -/
  | ret
  /-- `0NNN`, call machine code routine, a no-op (R100). -/
  | sys (nnn : Addr)
  /-- `1NNN`, jump (R103). -/
  | jp (nnn : Addr)
  /-- `2NNN`, call subroutine (R104). -/
  | call (nnn : Addr)
  /-- `3XNN`, skip if `V[X] = NN` (R107). -/
  | seImm (x : RegNum) (nn : Byte)
  /-- `4XNN`, skip if `V[X] ≠ NN` (R108). -/
  | sneImm (x : RegNum) (nn : Byte)
  /-- `5XY0`, skip if `V[X] = V[Y]`; bits 3 to 0 are ignored (R109, R79). -/
  | seReg (x y : RegNum)
  /-- `6XNN`, load immediate (R130). -/
  | ldImm (x : RegNum) (nn : Byte)
  /-- `7XNN`, add immediate, no carry (R131). -/
  | addImm (x : RegNum) (nn : Byte)
  /-- `8XY0`, move (R132). -/
  | ldReg (x y : RegNum)
  /-- `8XY1`, bitwise OR (R133). -/
  | orReg (x y : RegNum)
  /-- `8XY2`, bitwise AND (R134). -/
  | andReg (x y : RegNum)
  /-- `8XY3`, bitwise XOR (R135). -/
  | xorReg (x y : RegNum)
  /-- `8XY4`, add with carry (R136). -/
  | addReg (x y : RegNum)
  /-- `8XY5`, subtract `V[X] − V[Y]`, flag = borrow (R137). -/
  | subReg (x y : RegNum)
  /-- `8XY6`, shift right by 1; Y is encoded but not read (R138). -/
  | shr (x y : RegNum)
  /-- `8XY7`, subtract `V[Y] − V[X]`, flag = borrow (R139). -/
  | subnReg (x y : RegNum)
  /-- `8XYE`, shift left by 1; Y is encoded but not read (R140). -/
  | shl (x y : RegNum)
  /-- `9XY0`, skip if `V[X] ≠ V[Y]`; bits 3 to 0 are ignored (R110, R79). -/
  | sneReg (x y : RegNum)
  /-- `ANNN`, set index (R161). -/
  | ldI (nnn : Addr)
  /-- `BNNN`, jump to `V0 + NNN` (R105). -/
  | jpV0 (nnn : Addr)
  /-- `CXNN`, random AND mask (R141). -/
  | rnd (x : RegNum) (nn : Byte)
  /-- `DXYN`, draw sprite with XOR and collision flag; `n` is the height (R181). -/
  | drw (x y n : BitVec 4)
  /-- `EX9E`, skip if key `V[X]` is held (R200). -/
  | skp (x : RegNum)
  /-- `EXA1`, skip if key `V[X]` is not held (R201). -/
  | sknp (x : RegNum)
  /-- `FX07`, read delay timer (R202). -/
  | ldFromDt (x : RegNum)
  /-- `FX0A`, wait for a key (R203). -/
  | ldKey (x : RegNum)
  /-- `FX15`, set delay timer (R204). -/
  | ldDt (x : RegNum)
  /-- `FX18`, set sound timer (R205). -/
  | ldSt (x : RegNum)
  /-- `FX1E`, add to index (R162). -/
  | addI (x : RegNum)
  /-- `FX29`, font glyph address (R163). -/
  | ldFont (x : RegNum)
  /-- `FX33`, binary to decimal (R164). -/
  | ldBcd (x : RegNum)
  /-- `FX55`, store registers V0 to VX (R165). -/
  | storeRegs (x : RegNum)
  /-- `FX65`, load registers V0 to VX (R166). -/
  | loadRegs (x : RegNum)
  /-- The no-op fallback: a word that selects no instruction (R81). -/
  | noopFallback (raw : Word)
  deriving DecidableEq, Repr

end Sys2Proof
end

