-- ==== Sys2Proof/WellFormed.lean ====
section
/-! DEFINITION. Which terms of `Instr` are instructions the spec has. The field types bound every operand (R72: every
value of X, Y, N, NN and NNN is legal), so two checks are left: `0NNN` is never one of the two words that 00E0 and 00EE
take (R75), and the fallback holds only a word that selects nothing (R76 to R78, R81). -/

namespace Sys2Proof

/-- The low nibbles of an `op = 8` word that select an instruction (R76). -/
def aluSubOpcodes : List Nat := [0x0, 0x1, 0x2, 0x3, 0x4, 0x5, 0x6, 0x7, 0xE]

/-- The low bytes of an `op = E` word that select an instruction (R77). -/
def keySubOpcodes : List Nat := [0x9E, 0xA1]

/-- The low bytes of an `op = F` word that select an instruction (R78). -/
def miscSubOpcodes : List Nat := [0x07, 0x0A, 0x15, 0x18, 0x1E, 0x29, 0x33, 0x55, 0x65]

/-- The words that match no case of R76, R77 and R78: those of the no-op fallback (R81, R83). -/
def isFallbackWord (w : Word) : Bool :=
  (w.toNat / 4096 == 0x8 && !aluSubOpcodes.contains (w.toNat % 16)) ||
  (w.toNat / 4096 == 0xE && !keySubOpcodes.contains (w.toNat % 256)) ||
  (w.toNat / 4096 == 0xF && !miscSubOpcodes.contains (w.toNat % 256))

/-- The well-formed instructions: those some instruction word decodes to (R75, R81). -/
def Instr.wellFormed : Instr → Bool
  | .sys nnn => nnn != 0x0E0#12 && nnn != 0x0EE#12
  | .noopFallback raw => isFallbackWord raw
  | .cls | .ret | .jp _ | .call _ | .seImm _ _ | .sneImm _ _ | .seReg _ _ | .ldImm _ _ | .addImm _ _
  | .ldReg _ _ | .orReg _ _ | .andReg _ _ | .xorReg _ _ | .addReg _ _ | .subReg _ _ | .shr _ _ | .subnReg _ _
  | .shl _ _ | .sneReg _ _ | .ldI _ | .jpV0 _ | .rnd _ _ | .drw _ _ _ | .skp _ | .sknp _ | .ldFromDt _ | .ldKey _
  | .ldDt _ | .ldSt _ | .addI _ | .ldFont _ | .ldBcd _ | .storeRegs _ | .loadRegs _ => true

end Sys2Proof
end

