-- ==== Sys2Proof/Decode.lean ====
section
/-! DEFINITION. The decoder (30_encoding.md R70 to R79, R81, R83), total on instruction words; the byte-level decoder,
which refuses by name only a text of fewer than two bytes; the encoder, from the formats of R71; the opcode table as a
list of rows; and `decodeTableWord`, the host's way to ask the decoder. -/

namespace Sys2Proof

/-! ## The fields of an instruction word (R9) -/

/-- `op = ins[15:12]`. -/
def opField (w : Word) : BitVec 4 := w.extractLsb' 12 4
/-- `X = ins[11:8]`. -/
def xField (w : Word) : RegNum := w.extractLsb' 8 4
/-- `Y = ins[7:4]`. -/
def yField (w : Word) : RegNum := w.extractLsb' 4 4
/-- `N = ins[3:0]`. -/
def nField (w : Word) : BitVec 4 := w.extractLsb' 0 4
/-- `NN = ins[7:0]`. -/
def nnField (w : Word) : Byte := w.extractLsb' 0 8
/-- `NNN = ins[11:0]`. -/
def nnnField (w : Word) : Addr := w.extractLsb' 0 12

/-! ## The decoder -/

/-- Secondary dispatch of `op = 0`, on the whole word (R75). -/
def decodeOp0 (w : Word) : Instr :=
  if w = 0x00E0#16 then .cls
  else if w = 0x00EE#16 then .ret
  else .sys (nnnField w)

/-- Secondary dispatch of `op = 8`, on `ins[3:0]` (R76); the rest is the fallback (R81). -/
def decodeOp8 (w : Word) : Instr :=
  match (nField w).toNat with
  | 0x0 => .ldReg (xField w) (yField w)
  | 0x1 => .orReg (xField w) (yField w)
  | 0x2 => .andReg (xField w) (yField w)
  | 0x3 => .xorReg (xField w) (yField w)
  | 0x4 => .addReg (xField w) (yField w)
  | 0x5 => .subReg (xField w) (yField w)
  | 0x6 => .shr (xField w) (yField w)
  | 0x7 => .subnReg (xField w) (yField w)
  | 0xE => .shl (xField w) (yField w)
  | _ => .noopFallback w

/-- Secondary dispatch of `op = E`, on `ins[7:0]` (R77); the rest is the fallback (R81). -/
def decodeOpE (w : Word) : Instr :=
  match (nnField w).toNat with
  | 0x9E => .skp (xField w)
  | 0xA1 => .sknp (xField w)
  | _ => .noopFallback w

/-- Secondary dispatch of `op = F`, on `ins[7:0]` (R78); the rest is the fallback (R81). -/
def decodeOpF (w : Word) : Instr :=
  match (nnField w).toNat with
  | 0x07 => .ldFromDt (xField w)
  | 0x0A => .ldKey (xField w)
  | 0x15 => .ldDt (xField w)
  | 0x18 => .ldSt (xField w)
  | 0x1E => .addI (xField w)
  | 0x29 => .ldFont (xField w)
  | 0x33 => .ldBcd (xField w)
  | 0x55 => .storeRegs (xField w)
  | 0x65 => .loadRegs (xField w)
  | _ => .noopFallback w

/-- First-level dispatch on the primary opcode (R74). Total: decoding never fails (R83, R84). The opcodes 5 and 9
ignore bits 3 to 0 (R79; DESIGN CHOICE of the spec, D15; log entry 9). -/
def decodeWord (w : Word) : Instr :=
  match (opField w).toNat with
  | 0x0 => decodeOp0 w
  | 0x1 => .jp (nnnField w)
  | 0x2 => .call (nnnField w)
  | 0x3 => .seImm (xField w) (nnField w)
  | 0x4 => .sneImm (xField w) (nnField w)
  | 0x5 => .seReg (xField w) (yField w)
  | 0x6 => .ldImm (xField w) (nnField w)
  | 0x7 => .addImm (xField w) (nnField w)
  | 0x8 => decodeOp8 w
  | 0x9 => .sneReg (xField w) (yField w)
  | 0xA => .ldI (nnnField w)
  | 0xB => .jpV0 (nnnField w)
  | 0xC => .rnd (xField w) (nnField w)
  | 0xD => .drw (xField w) (yField w) (nField w)
  | 0xE => decodeOpE w
  | _ => decodeOpF w

/-- Why a text of bytes is no instruction. -/
inductive DecodeError where
  /-- Fewer than two bytes: every instruction is two bytes (R70). Raised by `decodeBytes` only; a fetch always has its
  two bytes, since its addresses wrap (R54). Safe. -/
  | truncated
  deriving DecidableEq, Repr

/-- The instruction word of two bytes, the byte at the lower address first: bits 15 to 8, then 7 to 0 (R54). -/
def wordOfBytes (hi lo : Byte) : Word := hi ++ lo

/-- The two bytes of a word, in the order in which they lie in memory (R54). -/
def bytesOfWord (w : Word) : List Byte := [w.extractLsb' 8 8, w.extractLsb' 0 8]

/-- The instruction at the front of a text of bytes, and the bytes after it (R54, R70). -/
def decodeBytes : List Byte → Except DecodeError (Instr × List Byte)
  | hi :: lo :: rest => .ok (decodeWord (wordOfBytes hi lo), rest)
  | _ => .error .truncated

/-! ## The encoder -/

/-- The instruction word of a well-formed instruction, from the formats of R71 and the match values of
opcode_table.json. The ignored nibble of 5XY0 and 9XY0 is 0, as the spec's assembler writes it (R86). -/
def encode : Instr → Word
  | .cls => 0x00E0#16
  | .ret => 0x00EE#16
  | .sys nnn => 0x0#4 ++ nnn
  | .jp nnn => 0x1#4 ++ nnn
  | .call nnn => 0x2#4 ++ nnn
  | .seImm x nn => 0x3#4 ++ x ++ nn
  | .sneImm x nn => 0x4#4 ++ x ++ nn
  | .seReg x y => 0x5#4 ++ x ++ y ++ 0x0#4
  | .ldImm x nn => 0x6#4 ++ x ++ nn
  | .addImm x nn => 0x7#4 ++ x ++ nn
  | .ldReg x y => 0x8#4 ++ x ++ y ++ 0x0#4
  | .orReg x y => 0x8#4 ++ x ++ y ++ 0x1#4
  | .andReg x y => 0x8#4 ++ x ++ y ++ 0x2#4
  | .xorReg x y => 0x8#4 ++ x ++ y ++ 0x3#4
  | .addReg x y => 0x8#4 ++ x ++ y ++ 0x4#4
  | .subReg x y => 0x8#4 ++ x ++ y ++ 0x5#4
  | .shr x y => 0x8#4 ++ x ++ y ++ 0x6#4
  | .subnReg x y => 0x8#4 ++ x ++ y ++ 0x7#4
  | .shl x y => 0x8#4 ++ x ++ y ++ 0xE#4
  | .sneReg x y => 0x9#4 ++ x ++ y ++ 0x0#4
  | .ldI nnn => 0xA#4 ++ nnn
  | .jpV0 nnn => 0xB#4 ++ nnn
  | .rnd x nn => 0xC#4 ++ x ++ nn
  | .drw x y n => 0xD#4 ++ x ++ y ++ n
  | .skp x => 0xE#4 ++ x ++ 0x9E#8
  | .sknp x => 0xE#4 ++ x ++ 0xA1#8
  | .ldFromDt x => 0xF#4 ++ x ++ 0x07#8
  | .ldKey x => 0xF#4 ++ x ++ 0x0A#8
  | .ldDt x => 0xF#4 ++ x ++ 0x15#8
  | .ldSt x => 0xF#4 ++ x ++ 0x18#8
  | .addI x => 0xF#4 ++ x ++ 0x1E#8
  | .ldFont x => 0xF#4 ++ x ++ 0x29#8
  | .ldBcd x => 0xF#4 ++ x ++ 0x33#8
  | .storeRegs x => 0xF#4 ++ x ++ 0x55#8
  | .loadRegs x => 0xF#4 ++ x ++ 0x65#8
  | .noopFallback raw => raw

/-! ## The opcode table -/

/-- One row of spec/opcode_table.json: its mnemonic, its mask and its match value. -/
structure OpcodeRow where
  mnemonic : String
  mask : Word
  pattern : Word
  deriving DecidableEq, Repr

/-- The rows of spec/opcode_table.json in its order; a word selects the first row it matches, which gives 00E0 and 00EE
their priority over 0NNN and the fallback its last place (R75, R81). -/
def opcodeTable : List OpcodeRow :=
  [⟨"00E0", 0xFFFF#16, 0x00E0#16⟩, ⟨"00EE", 0xFFFF#16, 0x00EE#16⟩, ⟨"0NNN", 0xF000#16, 0x0000#16⟩,
   ⟨"1NNN", 0xF000#16, 0x1000#16⟩, ⟨"2NNN", 0xF000#16, 0x2000#16⟩, ⟨"3XNN", 0xF000#16, 0x3000#16⟩,
   ⟨"4XNN", 0xF000#16, 0x4000#16⟩, ⟨"5XY0", 0xF000#16, 0x5000#16⟩, ⟨"6XNN", 0xF000#16, 0x6000#16⟩,
   ⟨"7XNN", 0xF000#16, 0x7000#16⟩] ++
  [⟨"8XY0", 0xF00F#16, 0x8000#16⟩, ⟨"8XY1", 0xF00F#16, 0x8001#16⟩, ⟨"8XY2", 0xF00F#16, 0x8002#16⟩,
   ⟨"8XY3", 0xF00F#16, 0x8003#16⟩, ⟨"8XY4", 0xF00F#16, 0x8004#16⟩, ⟨"8XY5", 0xF00F#16, 0x8005#16⟩,
   ⟨"8XY6", 0xF00F#16, 0x8006#16⟩, ⟨"8XY7", 0xF00F#16, 0x8007#16⟩, ⟨"8XYE", 0xF00F#16, 0x800E#16⟩] ++
  [⟨"9XY0", 0xF000#16, 0x9000#16⟩, ⟨"ANNN", 0xF000#16, 0xA000#16⟩, ⟨"BNNN", 0xF000#16, 0xB000#16⟩,
   ⟨"CXNN", 0xF000#16, 0xC000#16⟩, ⟨"DXYN", 0xF000#16, 0xD000#16⟩, ⟨"EX9E", 0xF0FF#16, 0xE09E#16⟩,
   ⟨"EXA1", 0xF0FF#16, 0xE0A1#16⟩] ++
  [⟨"FX07", 0xF0FF#16, 0xF007#16⟩, ⟨"FX0A", 0xF0FF#16, 0xF00A#16⟩, ⟨"FX15", 0xF0FF#16, 0xF015#16⟩,
   ⟨"FX18", 0xF0FF#16, 0xF018#16⟩, ⟨"FX1E", 0xF0FF#16, 0xF01E#16⟩, ⟨"FX29", 0xF0FF#16, 0xF029#16⟩,
   ⟨"FX33", 0xF0FF#16, 0xF033#16⟩, ⟨"FX55", 0xF0FF#16, 0xF055#16⟩, ⟨"FX65", 0xF0FF#16, 0xF065#16⟩,
   ⟨"no-op_fallback", 0x0000#16, 0x0000#16⟩]

/-- The mnemonic of the table row that an instruction belongs to. -/
def Instr.mnemonic : Instr → String
  | .cls => "00E0"
  | .ret => "00EE"
  | .sys _ => "0NNN"
  | .jp _ => "1NNN"
  | .call _ => "2NNN"
  | .seImm _ _ => "3XNN"
  | .sneImm _ _ => "4XNN"
  | .seReg _ _ => "5XY0"
  | .ldImm _ _ => "6XNN"
  | .addImm _ _ => "7XNN"
  | .ldReg _ _ => "8XY0"
  | .orReg _ _ => "8XY1"
  | .andReg _ _ => "8XY2"
  | .xorReg _ _ => "8XY3"
  | .addReg _ _ => "8XY4"
  | .subReg _ _ => "8XY5"
  | .shr _ _ => "8XY6"
  | .subnReg _ _ => "8XY7"
  | .shl _ _ => "8XYE"
  | .sneReg _ _ => "9XY0"
  | .ldI _ => "ANNN"
  | .jpV0 _ => "BNNN"
  | .rnd _ _ => "CXNN"
  | .drw _ _ _ => "DXYN"
  | .skp _ => "EX9E"
  | .sknp _ => "EXA1"
  | .ldFromDt _ => "FX07"
  | .ldKey _ => "FX0A"
  | .ldDt _ => "FX15"
  | .ldSt _ => "FX18"
  | .addI _ => "FX1E"
  | .ldFont _ => "FX29"
  | .ldBcd _ => "FX33"
  | .storeRegs _ => "FX55"
  | .loadRegs _ => "FX65"
  | .noopFallback _ => "no-op_fallback"

/-- The first row of the table that a word matches. -/
def rowOf (w : Word) : Option OpcodeRow :=
  opcodeTable.find? (fun r => w &&& r.mask = r.pattern)

/-! ## The host's question -/

/-- The instruction the decoder reads from the one instruction word whose bits are `w`, of which `nbits` are given and
the rest are 0, laid out in memory order (R54, R70). -/
def decodeTableWord (nbits w : Nat) : Option Instr :=
  match decodeBytes (bytesOfWord (BitVec.ofNat 16 (w % 2 ^ nbits))) with
  | .ok (i, _) => some i
  | .error _ => none

end Sys2Proof
end

