-- ==== Sys2Proof/Machine/Params.lean ====
section
/-! DEFINITION. The parameters of R7 that the spec gives a default: `FONT`, which the host's reset takes as an argument
(R42, R264, D7), with its default bytes, and the capacity of the call stack (R31, R225, D10). -/

namespace Sys2Proof

/-- The type of the parameter `FONT` (R7, R42): 16 glyphs of 5 bytes. `FONT` itself is an argument of the host's reset
(Machine/HostPort.lean), so a launch may have any font (R264). -/
abbrev Config.FontTable := Vector (Vector Byte 5) 16

/-- The default of `FONT`, the table of R42: glyph d is the five bytes at 5 × d, one byte per row, top row first.
PRESUMED (unsafe): the spec takes these bytes from general knowledge (G1). Log entry 3. -/
def Config.defaultFont : Config.FontTable :=
  #v[#v[0xF0#8, 0x90#8, 0x90#8, 0x90#8, 0xF0#8],
     #v[0x20#8, 0x60#8, 0x20#8, 0x20#8, 0x70#8],
     #v[0xF0#8, 0x10#8, 0xF0#8, 0x80#8, 0xF0#8],
     #v[0xF0#8, 0x10#8, 0xF0#8, 0x10#8, 0xF0#8],
     #v[0x90#8, 0x90#8, 0xF0#8, 0x10#8, 0x10#8],
     #v[0xF0#8, 0x80#8, 0xF0#8, 0x10#8, 0xF0#8],
     #v[0xF0#8, 0x80#8, 0xF0#8, 0x90#8, 0xF0#8],
     #v[0xF0#8, 0x10#8, 0x20#8, 0x40#8, 0x40#8],
     #v[0xF0#8, 0x90#8, 0xF0#8, 0x90#8, 0xF0#8],
     #v[0xF0#8, 0x90#8, 0xF0#8, 0x10#8, 0xF0#8],
     #v[0xF0#8, 0x90#8, 0xF0#8, 0x90#8, 0x90#8],
     #v[0xE0#8, 0x90#8, 0xE0#8, 0x90#8, 0xE0#8],
     #v[0xF0#8, 0x80#8, 0x80#8, 0x80#8, 0xF0#8],
     #v[0xE0#8, 0x90#8, 0x90#8, 0x90#8, 0xE0#8],
     #v[0xF0#8, 0x80#8, 0xF0#8, 0x80#8, 0xF0#8],
     #v[0xF0#8, 0x80#8, 0xF0#8, 0x80#8, 0x80#8]]

/-- Byte `a` of the font area: row `a mod 5` of glyph `a / 5` (R42). -/
def Config.fontByte (font : Config.FontTable) (a : Nat) (h : a < 80) : Byte :=
  (font[a / 5]'(by omega))[a % 5]'(Nat.mod_lt a (by omega))

/-- The 80 bytes of the font area, glyph after glyph (R42). -/
def Config.fontBytes (font : Config.FontTable) : List Byte :=
  List.ofFn (fun a : Fin 80 => Config.fontByte font a a.isLt)

/-- `STACK_CAPACITY` (R7, R31): unbounded, the spec's default and the source's design (D10); `some n` bounds the stack at
`n` entries (R225). DESIGN CHOICE (unsafe if a realisation bounds the stack). Log entry 2. -/
def Config.stackCapacity : Option Nat := none

end Sys2Proof
end

