-- ==== Sys2Proof/Machine/State.lean ====
section
/-! DEFINITION. The architectural state of the core as plain data (10_state.md R20 to R45), the faults and refusals of a
step, and the state right after reset (R41, R260). -/

namespace Sys2Proof.Machine

/-- Why a step stops. A fault is taken as a next state that records it in `halted` (R221); `step` answers the recorded
fault from then on, until reset (R222). The two constructors carry the address of the instruction that failed. -/
inductive Fault where
  /-- Raised by `00EE` at address `a` when the call stack is empty (R220). Answered by `step` on the state it leaves.
  Safe: the spec stops there too. -/
  | stackUnderflow (a : Addr)
  /-- Raised by `2NNN` at address `a` when the stack of a model that bounds it is full (R225). With the default
  `STACK_CAPACITY`, unbounded, no instruction raises it. Safe: the spec stops there too. -/
  | stackOverflow (a : Addr)
  deriving DecidableEq, Repr

/-- Why a step has no meaning. Every instruction of the table has one, so no step answers a refusal. -/
inductive Refusal where
  /-- Raised by an arm of `exec` whose instruction has no meaning yet; there is none left. Safe. -/
  | notModelled (mnemonic : String)
  deriving DecidableEq, Repr

/-- `HALTED` (R20, R39): whether the core has taken its one fatal fault. -/
inductive Halted where
  /-- The core runs. -/
  | running
  /-- The core has taken the fault `f` and has no step until reset (R222). -/
  | faulted (f : Fault)
  deriving DecidableEq, Repr

/-- Memory: the bytes that differ from their reset contents, each with its address, the addresses strictly rising
(`Memory.wf` in Machine/Ops.lean). An address that is not listed reads as `resetByte` says (R41; log entry 6). -/
abbrev Memory := List Host.Cell

/-- The display buffer: 32 rows of 64 cells; the cell at column x of row y is 1 when it is true (R35). -/
abbrev Display := Vector (Vector Bool dispW) dispH

/-- The state vector of R20, and the model's own count of random draws. -/
structure State where
  /-- `MEM`, 4096 bytes (R36, R50). -/
  mem : Memory
  /-- `V0` to `VF` (R21, R22). -/
  v : Vector Byte 16
  /-- `I`, the index register (R30). -/
  i : Addr
  /-- `PC`, the program counter (R25). -/
  pc : Addr
  /-- `STACK`, the call stack, its top first (R31). -/
  stack : List Addr
  /-- `DT`, the delay timer (R32). -/
  dt : Byte
  /-- `ST`, the sound timer (R33). -/
  st : Byte
  /-- `KEYS`, the key mask: bit k is 1 while key k is held (R34). -/
  keys : Word
  /-- `DISP`, the display buffer (R35). -/
  disp : Display
  /-- `HALTED` (R39). -/
  halted : Halted
  /-- The model's own field, not the spec's: how many random bytes have been drawn, which selects the next free byte
  (R14, R40, R141; log entry 5). -/
  draws : Nat
  deriving DecidableEq, Repr

/-- The display with every cell 0 (R180, R41). -/
def clearDisplay : Display := Vector.replicate dispH (Vector.replicate dispW false)

/-- The state right after reset (R41, R260, R261): memory at its reset contents with the
default `FONT`, every register 0, the program counter
at `LOAD_ADDR` = 0x200, an empty stack, a clear display, the core running. `draws` is the model's own field; its 0 is a
DESIGN CHOICE (log entry 5). The host's reset with any other font is `resetCore` (Machine/HostPort.lean; log entry 3). -/
def State.reset : State where
  mem := []
  v := Vector.replicate 16 0#8
  i := 0#12
  pc := 0x200#12
  stack := []
  dt := 0#8
  st := 0#8
  keys := 0#16
  disp := clearDisplay
  halted := .running
  draws := 0

end Sys2Proof.Machine
end

