-- ==== Sys2Proof/Machine/Ops.lean ====
section
/-! DEFINITION. The named operations over the state: one per field it sets, memory reads and writes (R51 to R53), general
registers (R21), the display's cells (R35), the program counter's moves (R27), the call stack (R31), taking a fault
(R221, R225) and fetching an instruction (R54). There is no return from a fault: no code runs after it, and only the
host's reset leaves the halted state (R222, R223). -/

namespace Sys2Proof.Machine

/-- The outcome of an instruction. -/
abbrev Result := Host.Outcome State Fault Refusal

/-! ## One update per field -/

def State.setMem (s : State) (m : Memory) : State := { s with mem := m }
def State.setI (s : State) (a : Addr) : State := { s with i := a }
def State.setPc (s : State) (a : Addr) : State := { s with pc := a }
def State.setStack (s : State) (k : List Addr) : State := { s with stack := k }
def State.setDt (s : State) (b : Byte) : State := { s with dt := b }
def State.setSt (s : State) (b : Byte) : State := { s with st := b }
def State.setKeys (s : State) (m : Word) : State := { s with keys := m }
def State.setDisp (s : State) (d : Display) : State := { s with disp := d }
def State.setHalted (s : State) (h : Halted) : State := { s with halted := h }
def State.setDraws (s : State) (n : Nat) : State := { s with draws := n }

/-! ## General registers -/

/-- `V[x]` (R21). -/
def State.getV (s : State) (x : RegNum) : Byte := s.v[x.toNat]'x.isLt

/-- `V[x] <- b` (R21): none of the sixteen is hardwired. -/
def State.setV (s : State) (x : RegNum) (b : Byte) : State := { s with v := s.v.set x.toNat b x.isLt }

/-! ## Memory -/

/-- What an address that is not listed reads as: the contents `State.reset` has there, the default font at 0 to 79 and 0
above (R41, R42, R59). A reset with another font lists the bytes that differ (log entries 3, 6). -/
def resetByte (a : Nat) : Byte := if h : a < 80 then Config.fontByte Config.defaultFont a h else 0#8

/-- The canonical form of memory: addresses inside the space and strictly rising, no byte at its reset contents. -/
abbrev Memory.wf (m : Memory) : Prop :=
  m.Pairwise (fun c d => c.1 < d.1) ∧ ∀ c ∈ m, c.1 < memSize ∧ c.2 ≠ resetByte c.1

/-- The byte a list of cells gives an address. -/
def lookupCell : Memory → Nat → Byte
  | [], a => resetByte a
  | c :: rest, a => if c.1 = a then c.2 else lookupCell rest a

/-- A cell put in before the first cell with a higher address. -/
def insertCell (c : Host.Cell) : Memory → Memory
  | [] => [c]
  | d :: rest => if c.1 < d.1 then c :: d :: rest else d :: insertCell c rest

/-- `MemRead(addr, 1)`: the byte at `addr mod 4096`; it never fails and changes nothing (R12, R51, R58). -/
def memRead (m : Memory) (addr : Nat) : Byte := lookupCell m (addr % memSize)

/-- `MemWrite(addr, 1, b)`: the byte at `addr mod 4096` becomes `b` and no other changes (R12, R52, R58). It keeps the
canonical form. -/
def memWrite (m : Memory) (addr : Nat) (b : Byte) : Memory :=
  let rest := m.filter (fun c => c.1 != addr % memSize)
  if b = resetByte (addr % memSize) then rest else insertCell (addr % memSize, b) rest

/-- Bytes written at rising addresses from `addr` on, each taken mod 4096 (R53, R57). -/
def storeBytes : Memory → Nat → List Byte → Memory
  | m, _, [] => m
  | m, addr, b :: rest => storeBytes (memWrite m addr b) (addr + 1) rest

/-! ## The display -/

/-- `DISP[x, y]` (R35); a place outside the 64 × 32 buffer has no cell and reads as 0 here, which no rule uses. -/
def cellAt (d : Display) (x y : Nat) : Bool := ((d[y]?.bind (fun row => row[x]?)).getD false)

/-- `DISP[x, y] <- b` (R35); nothing outside the buffer. -/
def setCell (d : Display) (x y : Nat) (b : Bool) : Display :=
  if h : y < dispH then d.set y (d[y].setIfInBounds x b) h else d

/-! ## The program counter -/

/-- `PC <- (A + 2) mod 4096`, the normal advance (R27, R29). `A` is the value PC held when the step began (R26). -/
def State.advance (s : State) : State := s.setPc (s.pc + 2#12)

/-- `PC <- (A + 4) mod 4096`, a skip taken (R27, R106). -/
def State.skip (s : State) : State := s.setPc (s.pc + 4#12)

/-- What a skip does: the next word passed over when the condition holds, else the normal advance (R106). -/
def State.skipIf (s : State) (c : Bool) : State := if c then s.skip else s.advance

/-! ## Faults and the call stack -/

/-- Taking a fault, the one shared operation (R13, R221, R225): the state changes only in `HALTED`, and `PC` stays at the
failing instruction. The answer is a next state; `step` answers the fault itself from that state on (R222; DEDUCED,
log entry 1). -/
def raise (f : Fault) (s : State) : Result := .next (s.setHalted (.faulted f))

/-- The fault a state records, if it has taken one (R222). -/
def State.recordedFault (s : State) : Option Fault :=
  match s.halted with
  | .running => none
  | .faulted f => some f

/-- Whether a stack of a given capacity has no room for one entry more (R225); an unbounded one always has (R31). -/
def stackFull (capacity : Option Nat) (k : List Addr) : Bool :=
  match capacity with
  | none => false
  | some n => n ≤ k.length

/-- A call to `target` (R104): the call's own address is pushed (log entry 15). A full stack raises StackOverflow and
writes nothing (R225). -/
def callSubroutine (capacity : Option Nat) (target : Addr) (s : State) : Result :=
  if stackFull capacity s.stack then raise (.stackOverflow s.pc) s
  else .next ((s.setStack (s.pc :: s.stack)).setPc target)

/-- A return (R102): the popped entry is the address of the call, and the program counter ends two past it. An empty
stack raises StackUnderflow before anything is popped (R220, R221). -/
def returnSubroutine (s : State) : Result :=
  match s.stack with
  | [] => raise (.stackUnderflow s.pc) s
  | a :: rest => .next ((s.setStack rest).setPc (a + 2#12))

/-! ## Fetch -/

/-- The two bytes at `A` and `(A + 1) mod 4096`, in that order (R54; the wrap at 0xFFF is the spec's decision D2, log
entry 7). -/
def fetchBytes (s : State) : List Byte := [memRead s.mem s.pc.toNat, memRead s.mem (s.pc.toNat + 1)]

/-- The instruction word at the program counter, the byte at the lower address in bits 15 to 8 (R54). -/
def fetchWord (s : State) : Word := wordOfBytes (memRead s.mem s.pc.toNat) (memRead s.mem (s.pc.toNat + 1))

/-- The instruction that the next step executes (R80). -/
def fetchInstr (s : State) : Instr := decodeWord (fetchWord s)

/-- An instruction word stored where the next step fetches, with the core running, which a fetch needs (R80; log
entry 19). -/
def placeWord (s : State) (w : Word) : State :=
  (s.setMem (storeBytes s.mem s.pc.toNat (bytesOfWord w))).setHalted .running

end Sys2Proof.Machine
end

