-- ==== Sys2Proof/Machine/Operands.lean ====
section
/-! DEFINITION. The operand forms (30_encoding.md R72, R73; 42_index_memory.md R160): I-relative addresses, registers
read as addresses, font glyphs, keys, decimal digits, sprite bits, runs of registers and the random byte. -/

namespace Sys2Proof.Machine

/-- The effective address `(I + k) mod 4096` (R53, R160). -/
def effAddr (s : State) (k : Nat) : Nat := (s.i.toNat + k) % memSize

/-- `zext_12` of a byte (R10, R73). -/
def zextAddr (b : Byte) : Addr := b.setWidth 12

/-- The address of the font glyph of the low nibble, `FONT_BASE + 5 × (v AND 0xF)` with `FONT_BASE` = 0 (R163). -/
def glyphAddr (b : Byte) : Addr := 5#12 * zextAddr (b &&& 0x0F#8)

/-- The key a register names: its low nibble (R200, R201). -/
def keyIndex (b : Byte) : Nat := (b &&& 0x0F#8).toNat

/-- Whether key `k` is held: bit `k` of the key mask (R34). -/
def keyHeld (keys : Word) (k : Nat) : Bool := keys.getLsbD k

/-- The lowest-numbered key held; 0 when there is none, which no rule uses (R203). -/
def lowestKey (keys : Word) : Nat := ((List.range 16).find? (keyHeld keys)).getD 0

/-- The decimal digits of a byte: hundreds, tens, ones (R164). -/
def bcdDigits (b : Byte) : List Byte := [b / 100#8, (b / 10#8) % 10#8, b % 10#8]

/-- The registers `V[0]` to `V[X]`, X included, in order (R165, R166). -/
def regsUpTo (x : RegNum) : List RegNum := (List.range (x.toNat + 1)).map (BitVec.ofNat 4)

/-- Column `c` of a sprite row: bit `7 − c`, the most significant bit leftmost (R182; PRESUMED by the spec, G4, D32; log
entry 10). -/
def spriteBit (row : Byte) (c : Nat) : Bool := row.getLsbD (7 - c)

/-- `rand8()`: the next free byte (R14, R141; log entry 5). -/
def randomByte (s : State) : Byte := Config.rand8 s.draws

/-- A draw taken: the next one is another (R14, R40). -/
def State.drawn (s : State) : State := s.setDraws (s.draws + 1)

end Sys2Proof.Machine
end

