-- ==== Sys2Proof/Machine/ControlFlow.lean ====
section
/-! DEFINITION. The control-flow instructions (40_control_flow.md) and the no-op fallback (30_encoding.md R81). -/

namespace Sys2Proof.Machine

/-- `0NNN`: a no-op; NNN is never used (R100). -/
def execSys (_nnn : Addr) (s : State) : Result := .next s.advance

/-- The no-op fallback: a word that selects no instruction changes only the program counter (R81). -/
def execNoopFallback (_raw : Word) (s : State) : Result := .next s.advance

/-- `00EE`: return; an empty stack is the one fatal condition (R102, R220). -/
def execRet (s : State) : Result := returnSubroutine s

/-- `1NNN`: jump (R103). -/
def execJp (nnn : Addr) (s : State) : Result := .next (s.setPc nnn)

/-- `2NNN`: call (R104), on a stack of the configured capacity (R225). -/
def execCall (nnn : Addr) (s : State) : Result := callSubroutine Config.stackCapacity nnn s

/-- `BNNN`: jump to `V[0] + NNN`, mod 4096 (R105). -/
def execJpV0 (nnn : Addr) (s : State) : Result := .next (s.setPc (zextAddr (s.getV 0#4) + nnn))

/-- `3XNN`: skip if `V[X] = NN` (R107). -/
def execSeImm (x : RegNum) (nn : Byte) (s : State) : Result := .next (s.skipIf (s.getV x == nn))

/-- `4XNN`: skip if `V[X] ≠ NN` (R108). -/
def execSneImm (x : RegNum) (nn : Byte) (s : State) : Result := .next (s.skipIf (s.getV x != nn))

/-- `5XY0`: skip if `V[X] = V[Y]` (R109). -/
def execSeReg (x y : RegNum) (s : State) : Result := .next (s.skipIf (s.getV x == s.getV y))

/-- `9XY0`: skip if `V[X] ≠ V[Y]` (R110). -/
def execSneReg (x y : RegNum) (s : State) : Result := .next (s.skipIf (s.getV x != s.getV y))

end Sys2Proof.Machine
end

