-- ==== Sys2Proof/Machine/Flags.lean ====
section
/-! DEFINITION. The values the flag register takes (10_state.md R37, 41_register_alu.md R142): the only flag is `VF`. -/

namespace Sys2Proof.Machine

/-- 1 when the condition holds, else 0. -/
def flagByte (c : Bool) : Byte := if c then 1#8 else 0#8

/-- `VF <- f` (R22, R37). -/
def State.setFlag (s : State) (f : Byte) : State := s.setV vf f

/-- The carry of 8XY4: 1 when the sum on unbounded integers is above 255 (R37, R136). -/
def carryFlag (a b : Byte) : Byte := flagByte (decide (255 < a.toNat + b.toNat))

/-- The borrow of `minuend − subtrahend` for 8XY5 and 8XY7: 1 when the subtrahend is the larger (R37, R142). -/
def borrowFlag (minuend subtrahend : Byte) : Byte := flagByte (decide (minuend.toNat < subtrahend.toNat))

/-- The bit 8XY6 shifts out: bit 0 (R37, R138). -/
def lowBitFlag (a : Byte) : Byte := a &&& 1#8

/-- The bit 8XYE shifts out: bit 7, the top bit of the register (R37, R140). -/
def highBitFlag (a : Byte) : Byte := (a >>> 7) &&& 1#8

end Sys2Proof.Machine
end

