-- ==== Sys2Proof/Machine/Display.lean ====
section
/-! DEFINITION. The display instructions (43_display.md): clear, and draw as the loop of R181. -/

namespace Sys2Proof.Machine

/-- `00E0`: every cell 0; `VF` unchanged (R180). -/
def execCls (s : State) : Result := .next (s.setDisp clearDisplay).advance

/-- The coordinates that the registers X and Y hold now, on unbounded integers (R184). -/
def coordsNow (s : State) (x y : RegNum) : Nat × Nat := ((s.getV x).toNat, (s.getV y).toNat)

/-- One set sprite bit on the cell `(px, py)`: XOR, with the collision in `VF` when the cell goes from 1 to 0 (R181). -/
def plot (px py : Nat) (s : State) : State :=
  if cellAt s.disp px py then (s.setDisp (setCell s.disp px py false)).setFlag 1#8
  else s.setDisp (setCell s.disp px py true)

/-- One row of a sprite, its columns in order (R181). `start` is the start coordinate when it was read once, `none`
when the registers are read at each pixel (R185). The rest of the row is left at the first column outside the buffer
(R183); coordinates are not reduced (R184; the spec's decision D5, log entry 11). -/
def drawRow (start : Option (Nat × Nat)) (x y : RegNum) (r : Nat) (row : Byte) : List Nat → State → State
  | [], s => s
  | c :: rest, s =>
    let at₀ := start.getD (coordsNow s x y)
    let px := at₀.1 + c
    let py := at₀.2 + r
    if dispW ≤ px ∨ dispH ≤ py then s
    else drawRow start x y r row rest (if spriteBit row c then plot px py s else s)

/-- The rows `0` to `n − 1` of a sprite, each read from `(I + r) mod 4096` when its turn comes (R181, R57). -/
def drawRows (start : Option (Nat × Nat)) (x y : RegNum) : List Nat → State → State
  | [], s => s
  | r :: rest, s =>
    drawRows start x y rest (drawRow start x y r (memRead s.mem (effAddr s r)) (List.range 8) s)

/-- When the coordinates are read once, what is read (R185). -/
def drawStart (mode : DrawCoordRead) (x y : RegNum) (s : State) : Option (Nat × Nat) :=
  match mode with
  | .beforeClear => some (coordsNow s x y)
  | .afterClear => some (coordsNow (s.setFlag 0#8) x y)
  | .live => none

/-- The whole of `DXYN` but the program counter, under one reading of R185: `VF` is cleared, then the rows are drawn
(R181). -/
def drawSprite (mode : DrawCoordRead) (x y n : BitVec 4) (s : State) : State :=
  drawRows (drawStart mode x y s) x y (List.range n.toNat) (s.setFlag 0#8)

/-- The reading in force for X and Y: the open parameter when one of them is 15. When neither is, the three readings
give the same result (R185), and the first is taken (log entry 21). -/
def drawMode (x y : RegNum) : DrawCoordRead :=
  if x = vf ∨ y = vf then Config.drawCoordRead else .beforeClear

/-- `DXYN`: draw a sprite with XOR and the collision flag (R181). -/
def execDrw (x y n : BitVec 4) (s : State) : Result := .next (drawSprite (drawMode x y) x y n s).advance

end Sys2Proof.Machine
end

