-- ==== Sys2Proof/Machine/IndexMemory.lean ====
section
/-! DEFINITION. The index register, the font address and the memory transfers (42_index_memory.md). Only ANNN, FX1E and
FX29 write `I` (R160). -/

namespace Sys2Proof.Machine

/-- `ANNN`: set index (R161). -/
def execLdI (nnn : Addr) (s : State) : Result := .next (s.setI nnn).advance

/-- `FX1E`: add to index mod 4096, no flag (R162). -/
def execAddI (x : RegNum) (s : State) : Result := .next (s.setI (s.i + zextAddr (s.getV x))).advance

/-- `FX29`: font glyph address (R163). -/
def execLdFont (x : RegNum) (s : State) : Result := .next (s.setI (glyphAddr (s.getV x))).advance

/-- `FX33`: the three decimal digits at `I`, `I + 1`, `I + 2` (R164). -/
def execLdBcd (x : RegNum) (s : State) : Result :=
  .next (s.setMem (storeBytes s.mem (effAddr s 0) (bcdDigits (s.getV x)))).advance

/-- `FX55`: `V[0]` to `V[X]` at `I` to `I + X`; `I` unchanged (R165). -/
def execStoreRegs (x : RegNum) (s : State) : Result :=
  .next (s.setMem (storeBytes s.mem (effAddr s 0) ((regsUpTo x).map s.getV))).advance

/-- `FX65`: `V[0]` to `V[X]` from `I` to `I + X`; `I` unchanged (R166). -/
def execLoadRegs (x : RegNum) (s : State) : Result :=
  .next ((regsUpTo x).foldl (fun t k => t.setV k (memRead t.mem (effAddr t k.toNat))) s).advance

end Sys2Proof.Machine
end

