-- ==== Sys2Proof/Machine/KeysTimers.lean ====
section
/-! DEFINITION. Key tests, key wait and timers (44_keys_timers.md). The core never decrements a timer (R32, R33). -/

namespace Sys2Proof.Machine

/-- `EX9E`: skip if key `V[X] AND 0xF` is held (R200). -/
def execSkp (x : RegNum) (s : State) : Result := .next (s.skipIf (keyHeld s.keys (keyIndex (s.getV x))))

/-- `EXA1`: skip if key `V[X] AND 0xF` is not held (R201). -/
def execSknp (x : RegNum) (s : State) : Result := .next (s.skipIf (!keyHeld s.keys (keyIndex (s.getV x))))

/-- `FX07`: read the delay timer (R202). -/
def execLdFromDt (x : RegNum) (s : State) : Result := .next (s.setV x s.dt).advance

/-- `FX0A`: with no key held the program counter stays and nothing changes; else the lowest key held (R203, R206). -/
def execLdKey (x : RegNum) (s : State) : Result :=
  .next (if s.keys = 0#16 then s else (s.setV x (BitVec.ofNat 8 (lowestKey s.keys))).advance)

/-- `FX15`: set the delay timer (R204). -/
def execLdDt (x : RegNum) (s : State) : Result := .next (s.setDt (s.getV x)).advance

/-- `FX18`: set the sound timer (R205). -/
def execLdSt (x : RegNum) (s : State) : Result := .next (s.setSt (s.getV x)).advance

end Sys2Proof.Machine
end

