-- ==== Sys2Proof/Machine/RegisterAlu.lean ====
section
/-! DEFINITION. Register loads, arithmetic and logic (41_register_alu.md). Statements run in order and each reads the
state the earlier ones left (R15), which matters when X or Y is 15 (R143; the spec's decision D3, log entry 8). -/

namespace Sys2Proof.Machine

/-- The last two statements of every instruction here: `V[X] <- b`, then the normal advance. -/
def writeResult (x : RegNum) (b : Byte) (s : State) : Result := .next (s.setV x b).advance

/-- `6XNN`: load immediate (R130). -/
def execLdImm (x : RegNum) (nn : Byte) (s : State) : Result := writeResult x nn s

/-- `7XNN`: add immediate mod 256, no flag (R131). -/
def execAddImm (x : RegNum) (nn : Byte) (s : State) : Result := writeResult x (s.getV x + nn) s

/-- `8XY0`: move (R132). -/
def execLdReg (x y : RegNum) (s : State) : Result := writeResult x (s.getV y) s

/-- `8XY1`: bitwise OR (R133). -/
def execOrReg (x y : RegNum) (s : State) : Result := writeResult x (s.getV x ||| s.getV y) s

/-- `8XY2`: bitwise AND (R134). -/
def execAndReg (x y : RegNum) (s : State) : Result := writeResult x (s.getV x &&& s.getV y) s

/-- `8XY3`: bitwise XOR (R135). -/
def execXorReg (x y : RegNum) (s : State) : Result := writeResult x (s.getV x ^^^ s.getV y) s

/-- `8XY4`: the sum is computed first, then the carry is written, then the sum mod 256 (R136). -/
def execAddReg (x y : RegNum) (s : State) : Result :=
  writeResult x (s.getV x + s.getV y) (s.setFlag (carryFlag (s.getV x) (s.getV y)))

/-- `8XY5`: the borrow is written first; the subtraction reads the registers as that write left them (R137). -/
def execSubReg (x y : RegNum) (s : State) : Result :=
  let s₁ := s.setFlag (borrowFlag (s.getV x) (s.getV y))
  writeResult x (s₁.getV x - s₁.getV y) s₁

/-- `8XY6`: bit 0 is written to the flag, then `V[X]` is shifted right as that write left it; Y is not read (R138). -/
def execShr (x _y : RegNum) (s : State) : Result :=
  let s₁ := s.setFlag (lowBitFlag (s.getV x))
  writeResult x (s₁.getV x >>> 1) s₁

/-- `8XY7`: the borrow of `V[Y] − V[X]` is written first; the subtraction reads the registers as that write left them
(R139). -/
def execSubnReg (x y : RegNum) (s : State) : Result :=
  let s₁ := s.setFlag (borrowFlag (s.getV y) (s.getV x))
  writeResult x (s₁.getV y - s₁.getV x) s₁

/-- `8XYE`: bit 7 is written to the flag, then `V[X]` is shifted left as that write left it; Y is not read (R140). -/
def execShl (x _y : RegNum) (s : State) : Result :=
  let s₁ := s.setFlag (highBitFlag (s.getV x))
  writeResult x (s₁.getV x <<< 1) s₁

/-- `CXNN`: a free byte AND NN (R141). -/
def execRnd (x : RegNum) (nn : Byte) (s : State) : Result := writeResult x (randomByte s &&& nn) s.drawn

end Sys2Proof.Machine
end

