-- ==== Sys2Proof/Machine/Step.lean ====
section
/-! DEFINITION. One step (30_encoding.md R80, 60_exceptions.md R222), and the host's way to place one instruction. -/

namespace Sys2Proof.Machine

/-- One fetch-decode-execute cycle while the core runs (R80). A core that has taken a fault has no step: the recorded
fault is answered again and no state follows (R222). -/
def step (s : State) : Host.Outcome State Fault Refusal :=
  match s.recordedFault with
  | some f => .fault f
  | none => exec (fetchInstr s) s

/-- The state with one instruction word placed where `step` fetches next, so that the next step runs exactly it: its two
bytes at `PC` and `PC + 1`, big-endian (R54), and the core running. Log entry 19. -/
def State.withFetchWord (s : State) (nbits w : Nat) : State := placeWord s (BitVec.ofNat 16 (w % 2 ^ nbits))

end Sys2Proof.Machine
end

