-- ==== Sys2Proof/Machine/HostPort.lean ====
section
/-! DEFINITION. The host's side of the core: the atomic transactions of 60_exceptions.md R240 to R248 and the reset of
70_reset_and_hazards.md R260. They happen between steps, in an order the host chooses (R16, R247). A transaction that
the spec gives no move answers `none` (log entry 14). -/

namespace Sys2Proof.Machine

/-! ## What each transaction does to the core -/

/-- `reset()` (R260) of a core whose parameter `FONT` is `font` (R42): every state element at its reset value, from any
state, with the 80 font bytes at 0 to 79. With the default font this is `State.reset` (`resetCore_default`). The count of draws is the model's own
field and no part of the core (R40): it goes on, so that draws after a reset are free of those before (R14, R264; log
entry 5). -/
def resetCore (font : Config.FontTable) (s : State) : State :=
  (State.reset.setMem (storeBytes State.reset.mem 0 (Config.fontBytes font))).setDraws s.draws

/-- `load(bytes)` (R241): byte `k` of the ROM at `0x200 + k`. -/
def loadRom (rom : List Byte) (s : State) : State := s.setMem (storeBytes s.mem 0x200 rom)

/-- The launch state (R262, R264): a reset, then the ROM. Its free parts are the font, the ROM and the draws to come. -/
def launchCore (font : Config.FontTable) (rom : List Byte) (s : State) : State := loadRom rom (resetCore font s)

/-- The most bytes a ROM may have, `ROM_MAX` = 4096 − 512 (R7, R241). -/
def romMax : Nat := 3584

/-- A one-hot key mask: exactly one bit set (R242). -/
def oneHot (m : Word) : Bool := (List.range 16).any (fun k => m == 1#16 <<< k)

/-- `key_pressed(m)`: `KEYS <- KEYS OR m` (R242). -/
def pressKey (m : Word) (s : State) : State := s.setKeys (s.keys ||| m)

/-- `key_released(m)`: `KEYS <- KEYS AND NOT m` (R243). -/
def releaseKey (m : Word) (s : State) : State := s.setKeys (s.keys &&& ~~~m)

/-- One tick of one timer: a zero timer stays at zero (R244; PRESUMED by the spec, G3, D9; log entry 13). -/
def tickTimer (t : Byte) : Byte := if t = 0#8 then 0#8 else t - 1#8

/-- `timer_tick()`: both timers (R244; the spec's decision D21, log entry 13). -/
def tickTimers (s : State) : State := (s.setDt (tickTimer s.dt)).setSt (tickTimer s.st)

/-- `read_display()`: the 2048 cells in row order, cell `(x, y)` at `y × 64 + x`, each a byte 0 or 1 (R44, R245; the
spec's decision D6, log entry 16). -/
def displayCells (s : State) : List Byte :=
  (List.range (dispW * dispH)).map (fun k => if cellAt s.disp (k % dispW) (k / dispW) then 1#8 else 0#8)

/-- What `step()` reports: `Ok`, or the fault of a core that is halted after it (R222, R240). -/
inductive StepStatus where
  | ok
  | fault (f : Fault)
  deriving DecidableEq, Repr

/-- The status of a state: the fault it records, if any (R240). -/
def statusOf (s : State) : StepStatus :=
  match s.recordedFault with
  | none => .ok
  | some f => .fault f

/-! ## The transactions -/

/-- Where a session stands, which decides when `load` has a move (R241, R262). The model's own bookkeeping. -/
inductive Phase where
  /-- No reset yet: the state is unspecified and nothing but reset has a move (R43). -/
  | beforeReset
  /-- After a reset, with no step taken since. -/
  | loadable
  /-- A step has been taken since the last reset. -/
  | stepped
  deriving DecidableEq, Repr

/-- The core and where the host's session with it stands. -/
structure Session where
  core : State
  phase : Phase
  deriving DecidableEq, Repr

/-- The moves of the host (R240); there is no other (R248). -/
inductive Transaction where
  | reset
  | load (rom : List Byte)
  | step
  | keyPressed (m : Word)
  | keyReleased (m : Word)
  | timerTick
  | readDisplay
  | readSoundTimer
  deriving DecidableEq, Repr

/-- What a transaction returns to the host (R240). -/
inductive Response where
  | done
  | status (r : StepStatus)
  | display (cells : List Byte)
  | soundTimer (b : Byte)
  deriving DecidableEq, Repr

/-- The step transaction (R222, R240): one step while the core runs, reported by the state it leaves; on a halted core
nothing changes and the fault is returned again. No step is refused, so the last case has no move. -/
def stepCore (s : State) : Option (State × StepStatus) :=
  match step s with
  | .next t => some (t, statusOf t)
  | .fault f => some (s, .fault f)
  | .refused _ => none

/-- One transaction that is not kept back before the first reset (R240 to R246). `font` is the parameter `FONT`: it is no
state (R45) and only reset uses it. -/
def transactReady (font : Config.FontTable) (ses : Session) : Transaction → Option (Session × Response)
  | .reset => some (⟨resetCore font ses.core, .loadable⟩, .done)
  | .load rom =>
    if ses.phase = .loadable ∧ rom.length ≤ romMax then some (⟨loadRom rom ses.core, ses.phase⟩, .done) else none
  | .step => (stepCore ses.core).map (fun r => (⟨r.1, .stepped⟩, .status r.2))
  | .keyPressed m => if oneHot m then some (⟨pressKey m ses.core, ses.phase⟩, .done) else none
  | .keyReleased m => if oneHot m then some (⟨releaseKey m ses.core, ses.phase⟩, .done) else none
  | .timerTick => some (⟨tickTimers ses.core, ses.phase⟩, .done)
  | .readDisplay => some (ses, .display (displayCells ses.core))
  | .readSoundTimer => some (ses, .soundTimer ses.core.st)

/-- One transaction (R240), of a core with the parameter `FONT`. Before the first reset only `reset` has a move (R43,
R262). -/
def transact (font : Config.FontTable) (ses : Session) (t : Transaction) : Option (Session × Response) :=
  if ses.phase = .beforeReset ∧ t ≠ .reset then none else transactReady font ses t

/-- A sequence of transactions, `none` when one of them has no move. -/
def transactAll (font : Config.FontTable) : List Transaction → Session → Option Session
  | [], ses => some ses
  | t :: rest, ses => (transact font ses t).bind (fun r => transactAll font rest r.1)

end Sys2Proof.Machine
end

