-- ==== Sys2Proof/Safety.lean ====
section
/-! DEFINITION. The terms claims use: what an instruction leaves unchanged, the invariant of the machine, the good and
the bad end of a run (70_reset_and_hazards.md R266), runs of instructions and of nested calls, and the pixels of a
sprite as one formula, beside the drawing loop of Machine/Display.lean. -/

namespace Sys2Proof.Machine

/-! ## Frames -/

/-- A part of the state an instruction may write, the program counter apart: a frame need not say how that moves. -/
inductive Part where
  | reg (r : RegNum)
  | i
  | stack
  | dt
  | st
  | keys
  | disp
  | halted
  | draws
  | byte (a : Nat)
  deriving DecidableEq, Repr

/-- Every part of the state that `written` does not list is the same in `t` as in `s`: every register, every other
field and every byte of memory, read by `memRead`. -/
structure Keeps (written : List Part) (s t : State) : Prop where
  reg : ∀ r, .reg r ∉ written → t.getV r = s.getV r
  i : .i ∉ written → t.i = s.i
  stack : .stack ∉ written → t.stack = s.stack
  dt : .dt ∉ written → t.dt = s.dt
  st : .st ∉ written → t.st = s.st
  keys : .keys ∉ written → t.keys = s.keys
  disp : .disp ∉ written → t.disp = s.disp
  halted : .halted ∉ written → t.halted = s.halted
  draws : .draws ∉ written → t.draws = s.draws
  byte : ∀ a, .byte (a % memSize) ∉ written → memRead t.mem a = memRead s.mem a

/-- The program counter of `t` is `k` past that of `s`, mod 4096 (R27, R29). -/
def PcMoved (k : Nat) (s t : State) : Prop := t.pc.toNat = (s.pc.toNat + k) % 4096

/-- The parts that `V[0]` to `V[X]` are. -/
def regParts (x : RegNum) : List Part := (regsUpTo x).map .reg

/-- The `n` bytes from `(I + 0) mod 4096` on, each taken mod 4096: where FX33 and FX55 store (R57, R160). -/
def byteParts (s : State) (n : Nat) : List Part := (List.range n).map (fun k => .byte (effAddr s k))

/-- The general registers that an instruction may write (R23): its destination, the flag register of a flag writer, and
`V[0]` to `V[X]` for FX65. -/
def vWrites : Instr → List RegNum
  | .ldImm x _ | .addImm x _ | .ldReg x _ | .orReg x _ | .andReg x _ | .xorReg x _ | .rnd x _ | .ldFromDt x
  | .ldKey x => [x]
  | .addReg x _ | .subReg x _ | .shr x _ | .subnReg x _ | .shl x _ => [x, vf]
  | .drw _ _ _ => [vf]
  | .loadRegs x => regsUpTo x
  | .cls | .ret | .sys _ | .jp _ | .call _ | .seImm _ _ | .sneImm _ _ | .seReg _ _ | .sneReg _ _ | .ldI _ | .jpV0 _
  | .skp _ | .sknp _ | .ldDt _ | .ldSt _ | .addI _ | .ldFont _ | .ldBcd _ | .storeRegs _ | .noopFallback _ => []

/-- Whether the condition of a skip instruction holds (R106 to R110, R200, R201); false for any other instruction. -/
def skipHolds (s : State) : Instr → Bool
  | .seImm x nn => s.getV x == nn
  | .sneImm x nn => s.getV x != nn
  | .seReg x y => s.getV x == s.getV y
  | .sneReg x y => s.getV x != s.getV y
  | .skp x => keyHeld s.keys ((s.getV x).toNat % 16)
  | .sknp x => !keyHeld s.keys ((s.getV x).toNat % 16)
  | _ => false

/-! ## Reset -/

/-- Every element of the state vector is at the value R41 gives, for a core whose `FONT` is `font` (R42). -/
structure AtReset (font : Config.FontTable) (t : State) : Prop where
  v : ∀ r, t.getV r = 0#8
  i : t.i = 0#12
  pc : t.pc = 0x200#12
  stack : t.stack = []
  dt : t.dt = 0#8
  st : t.st = 0#8
  keys : t.keys = 0#16
  disp : ∀ x y, cellAt t.disp x y = false
  halted : t.halted = .running
  font : ∀ (a : Nat) (h : a < 80), memRead t.mem a = Config.fontByte font a h
  zero : ∀ a, 80 ≤ a → a < 4096 → memRead t.mem a = 0#8

/-! ## The invariant -/

/-- The machine's invariant: memory is in its canonical form, and a core that has halted did so on an empty stack at the
instruction its `PC` still names (R220, R221); with an unbounded stack it has no other fault (R225). -/
def Inv (s : State) : Prop :=
  s.mem.wf ∧ ∀ f, s.halted = .faulted f → f = .stackUnderflow s.pc ∧ s.stack = []

/-! ## Runs -/

/-- A run has ended well at `e` (R266): the program counter is `e`, the word there is `1NNN` with NNN = `e`, and the core
runs. -/
def EndsWell (e : Addr) (s : State) : Prop := s.pc = e ∧ fetchWord s = 0x1#4 ++ e ∧ s.halted = .running

/-- A run has ended badly (R266): the core has taken a fault. -/
def EndsBadly (s : State) : Prop := s.halted ≠ .running

/-- The instructions of a list executed one after another, each on the state that the one before it left. -/
def execAll : List Instr → State → Result
  | [], s => .next s
  | i :: rest, s =>
    match exec i s with
    | .next t => execAll rest t
    | .fault f => .fault f
    | .refused r => .refused r

/-- An instruction that does not touch the call stack (R31). -/
def quiet : Instr → Bool
  | .call _ | .ret => false
  | _ => true

/-- The runs in which every call has its return: each 2NNN is followed, after a run of the same kind, by one 00EE (R111). -/
inductive Nested : List Instr → Prop where
  | nil : Nested []
  | step {i : Instr} {rest : List Instr} : quiet i = true → Nested rest → Nested (i :: rest)
  | nest (target : Addr) {body rest : List Instr} :
      Nested body → Nested rest → Nested (.call target :: (body ++ .ret :: rest))

/-! ## Sprites as one formula -/

/-- Bit `7 − c` of the sprite byte at `(I + r) mod 4096`: the pixel in column `c` of row `r` (R181, R182, R57). -/
def spritePixel (s : State) (r c : Nat) : Bool := (memRead s.mem ((s.i.toNat + r) % 4096)).getLsbD (7 - c)

/-- Whether, among the pixels of a sprite that `part` takes, numbered `8 × r + c` in drawing order, a set one lies on the
cell `(px, py)` of the buffer, when the sprite's top left is at `(x0, y0)` (R181 to R184). -/
def spriteCoversPart (part : Nat → Bool) (s : State) (x0 y0 n px py : Nat) : Bool :=
  (List.range n).any (fun r => (List.range 8).any (fun c =>
    part (8 * r + c) && x0 + c == px && y0 + r == py && px < 64 && py < 32 && spritePixel s r c))

/-- Whether a sprite of `n` rows whose top left is at `(x0, y0)` has a set pixel on the cell `(px, py)` of the buffer
(R181 to R184): some row `r` and column `c` of it fall there and bit `7 − c` of the byte at `I + r` is 1. -/
def spriteCovers (s : State) (x0 y0 n px py : Nat) : Bool := spriteCoversPart (fun _ => true) s x0 y0 n px py

/-- Whether the pixel numbered `k = 8 × r + c` of that sprite is set and lies on a cell of the buffer that is 1: the
collision that drawing it on the display as it is would be (R181). -/
def pixelCollides (s : State) (x0 y0 k : Nat) : Bool :=
  spritePixel s (k / 8) (k % 8) && x0 + k % 8 < 64 && y0 + k / 8 < 32 && cellAt s.disp (x0 + k % 8) (y0 + k / 8)

/-- Whether drawing that sprite turns some pixel from 1 to 0: the collision of R181. -/
def spriteCollides (s : State) (x0 y0 n : Nat) : Bool :=
  (List.range dispH).any (fun py => (List.range dispW).any (fun px =>
    spriteCovers s x0 y0 n px py && cellAt s.disp px py))

end Sys2Proof.Machine
end

