-- ==== Sys2Proof/Certificates/Slice0/Obligations.lean ====
section
/-! DEFINITION. The statements for the provers, from the numbered rules of spec/. A completion statement has the form
`∃ t, exec i s = .next t ∧ …`: the instruction answers a next state, and the rest says which. `Keeps ws s t` is its frame:
all but the parts `ws` and the program counter is unchanged. -/

open Sys2Proof Sys2Proof.Machine

/-! ## Encoding -/

/-- Decoding the word of a well-formed instruction gives the instruction back, for every operand (R71, R83). -/
def Obligations.DecodeOfEncodeIsIdentity : Prop :=
  ∀ i : Instr, i.wellFormed = true → decodeWord (encode i) = i

/-- Every word decodes to a well-formed instruction, and encoding that gives the word back, but for the low nibble that
5XY0 and 9XY0 ignore (R79, R83). That nibble's being ignored is the spec's decision D15 (log entry 9). -/
def Obligations.EncodeOfDecodeIsWord : Prop :=
  ∀ w : Word, (decodeWord w).wellFormed = true ∧
    encode (decodeWord w) = if w.toNat / 4096 = 5 ∨ w.toNat / 4096 = 9 then w &&& 0xFFF0#16 else w

/-- The decoder selects, for every word, the first row of the opcode table that the word matches (R75 to R79, R81). -/
def Obligations.DecoderFollowsOpcodeTable : Prop :=
  ∀ w : Word, (rowOf w).map (fun r => r.mnemonic) = some (decodeWord w).mnemonic

/-- The no-op fallback (R81): which words it covers, and that each of them only advances the program counter. -/
def Obligations.FallbackWordsAreNoOps : Prop :=
  (∀ w : Word, decodeWord w = .noopFallback w ↔
    (w.toNat / 4096 = 0x8 ∧ w.toNat % 16 ∈ [0x8, 0x9, 0xA, 0xB, 0xC, 0xD, 0xF]) ∨
    (w.toNat / 4096 = 0xE ∧ w.toNat % 256 ∉ [0x9E, 0xA1]) ∨
    (w.toNat / 4096 = 0xF ∧ w.toNat % 256 ∉ [0x07, 0x0A, 0x15, 0x18, 0x1E, 0x29, 0x33, 0x55, 0x65])) ∧
  ∀ (w : Word) (s : State), ∃ t, exec (.noopFallback w) s = .next t ∧ PcMoved 2 s t ∧ Keeps [] s t

/-- A few words of the spec's own examples and the instructions they stand for, one or more of each family. -/
def Obligations.SpecWordsDecode : Prop :=
  decodeWord 0x00EE#16 = .ret ∧ decodeWord 0x2208#16 = .call 0x208#12 ∧ decodeWord 0x3342#16 = .seImm 3#4 0x42#8 ∧
  decodeWord 0x600A#16 = .ldImm 0#4 0x0A#8 ∧ decodeWord 0x8014#16 = .addReg 0#4 1#4 ∧
  decodeWord 0xA300#16 = .ldI 0x300#12 ∧ decodeWord 0xFC33#16 = .ldBcd 0xC#4 ∧ decodeWord 0xD125#16 = .drw 1#4 2#4 5#4 ∧
  decodeWord 0xE09E#16 = .skp 0#4 ∧ decodeWord 0xF30A#16 = .ldKey 3#4 ∧ decodeWord 0x8008#16 = .noopFallback 0x8008#16

/-! ## The step -/

/-- A running core whose bytes at `A` and `(A + 1) mod 4096` decode to `i` steps as `exec i`, with nothing around it
(R80, R54). The wrap of the second byte's address is the spec's decision D2 (log entry 7). -/
def Obligations.StepRunsDecodedInstruction : Prop :=
  ∀ (s : State) (i : Instr) (rest : List Byte), s.halted = .running →
    decodeBytes (memRead s.mem s.pc.toNat :: memRead s.mem ((s.pc.toNat + 1) % 4096) :: rest) = .ok (i, rest) →
    step s = exec i s

/-- A halted core has no step: the step answers the recorded fault, and the step transaction, once there was a reset,
leaves the core as it is and returns that fault (R222, R240). That the fault is taken as a recorded state is the spec's
decision D12 (log entry 1). -/
def Obligations.HaltedCoreHasNoStep : Prop :=
  ∀ (s : State) (f : Fault), s.halted = .faulted f → step s = .fault f ∧ stepCore s = some (s, .fault f) ∧
    ∀ (font : Config.FontTable) (phase : Phase), phase ≠ .beforeReset →
      transact font ⟨s, phase⟩ .step = some (⟨s, .stepped⟩, .status (.fault f))

/-- The reset transaction has its move from every session, in every phase and halted or not, puts every element at the
value R41 gives with whatever `FONT` the core has (R42), and leaves a session that can load; `State.reset` is that with
the default font. Before the first reset nothing else has a move (R43). `HALTED` = `Running` is the spec's decision D12,
the phases the model's form of D23 and D31 (log entry 14); the count of draws is the model's own and is not spoken of
(log entry 5). -/
def Obligations.ResetLeavesEveryElement : Prop :=
  (∀ (font : Config.FontTable) (ses : Session),
    ∃ t, transact font ses .reset = some (⟨t, .loadable⟩, .done) ∧ AtReset font t) ∧
  AtReset Config.defaultFont State.reset ∧
  ∀ (font : Config.FontTable) (ses : Session) (x : Transaction), ses.phase = .beforeReset → x ≠ .reset →
    transact font ses x = none

/-- The entry point (R261), whatever the font: 0x200, memory zero from there up, and a step taken before any load executes
the 0NNN no-op `0x0000` there. -/
def Obligations.FirstStepAfterReset : Prop :=
  ∀ t : State, (t = State.reset ∨ ∃ font s, t = resetCore font s) →
    t.pc = 0x200#12 ∧ (∀ a, 0x200 ≤ a → a < 4096 → memRead t.mem a = 0#8) ∧
    fetchInstr t = .sys 0#12 ∧ step t = .next (t.setPc 0x202#12)

/-- The state after reset meets the invariant, whatever the font. -/
def Obligations.ResetMeetsInvariant : Prop := Inv State.reset ∧ ∀ font s, Inv (resetCore font s)

/-- Every step keeps the invariant: memory stays canonical, and a core halts only on an empty stack with its `PC` at the
failing 00EE (R52, R221). That a 2NNN never halts rests on the unbounded stack (log entry 2). -/
def Obligations.StepKeepsInvariant : Prop :=
  ∀ s t : State, Inv s → step s = .next t → Inv t

/-- Every transaction of the host keeps the invariant, from any session (R240). That a step of a 2NNN keeps it rests on the
unbounded stack, the spec's decision D10 (log entry 2). -/
def Obligations.TransactionsKeepInvariant : Prop :=
  ∀ (font : Config.FontTable) (ses ses' : Session) (x : Transaction) (r : Response),
    Inv ses.core → transact font ses x = some (ses', r) → Inv ses'.core

/-- Nothing but a return on an empty stack faults (R224): every instruction on every state answers a next state, and
`HALTED` changes only then. For 2NNN this rests on the unbounded stack (log entry 2). -/
def Obligations.OnlyReturnFaults : Prop :=
  ∀ (i : Instr) (s : State), ∃ t, exec i s = .next t ∧ (t.halted ≠ s.halted → i = .ret ∧ s.stack = [])

/-! ## What writes and reads each kind of state -/

/-- The writers of the general registers (R23): no instruction changes another register than those R23 gives it, FX0A
changes none while no key is held, and reset writes all sixteen. -/
def Obligations.GeneralRegisterWriters : Prop :=
  (∀ (i : Instr) (s t : State), exec i s = .next t →
    (∀ r, r ∉ vWrites i → t.getV r = s.getV r) ∧
    (∀ x, i = .ldKey x → s.keys = 0#16 → ∀ r, t.getV r = s.getV r)) ∧
  ∀ (font : Config.FontTable) (s : State) (r : RegNum), (resetCore font s).getV r = 0#8

/-- The program counter after every instruction (R27): one of the six values, each for the instructions R27 names; a
fault leaves it (R221). The popped entry is the call's address by the spec's decision D11 (log entry 15); that a 2NNN
always ends at NNN rests on the unbounded stack, its D10 (log entry 2). -/
def Obligations.ProgramCounterValues : Prop :=
  ∀ (i : Instr) (s t : State), exec i s = .next t →
    match i with
    | .jp nnn | .call nnn => t.pc = nnn
    | .jpV0 nnn => t.pc.toNat = ((s.getV 0#4).toNat + nnn.toNat) % 4096
    | .ret => match s.stack with
      | [] => t.pc = s.pc
      | a :: _ => t.pc.toNat = (a.toNat + 2) % 4096
    | .ldKey _ => if s.keys = 0#16 then t.pc = s.pc else PcMoved 2 s t
    | _ => if skipHolds s i then PcMoved 4 s t else PcMoved 2 s t

/-- The writers of the other state, over all instructions: `I` (R30), the stack (R31), `DT` (R32), `ST` (R33), `KEYS`
(R34) and each byte of memory (R57, R160). -/
def Obligations.SpecialStateWriters : Prop :=
  ∀ (i : Instr) (s t : State), exec i s = .next t →
    (t.i ≠ s.i → (∃ nnn, i = .ldI nnn) ∨ (∃ x, i = .addI x) ∨ (∃ x, i = .ldFont x)) ∧
    (t.stack ≠ s.stack → (∃ nnn, i = .call nnn) ∨ i = .ret) ∧
    (t.dt ≠ s.dt → ∃ x, i = .ldDt x) ∧ (t.st ≠ s.st → ∃ x, i = .ldSt x) ∧ t.keys = s.keys ∧
    (∀ a, memRead t.mem a ≠ memRead s.mem a →
      (∃ x, i = .ldBcd x ∧ ∃ k ≤ 2, a % 4096 = (s.i.toNat + k) % 4096) ∨
      (∃ x, i = .storeRegs x ∧ ∃ k ≤ x.toNat, a % 4096 = (s.i.toNat + k) % 4096))

/-- Only 00E0, DXYN and reset change the display (R187): no other instruction and no other transaction of the host. A
step that the host takes changes it only through the instruction it executes. -/
def Obligations.DisplayWriters : Prop :=
  (∀ (i : Instr) (s t : State), exec i s = .next t → t.disp ≠ s.disp → i = .cls ∨ ∃ x y n, i = .drw x y n) ∧
  ∀ (font : Config.FontTable) (ses ses' : Session) (x : Transaction) (r : Response),
    transact font ses x = some (ses', r) → ses'.core.disp ≠ ses.core.disp →
    x = .reset ∨ (x = .step ∧ (fetchInstr ses.core = .cls ∨ ∃ a b n, fetchInstr ses.core = .drw a b n))

/-- No instruction reads the sound timer (R33) or `HALTED` (R39): with another value there, an instruction does the same
to everything else. -/
def Obligations.SoundTimerAndHaltedUnread : Prop :=
  ∀ (i : Instr) (s t : State), exec i s = .next t →
    (∀ b, ∃ u, exec i (s.setSt b) = .next u ∧ u.setSt 0#8 = t.setSt 0#8) ∧
    (∀ h, ∃ u, exec i (s.setHalted h) = .next u ∧ u.setHalted .running = t.setHalted .running)

/-! ## Control flow -/

/-- 0NNN is a no-op (R100): any word of `op` 0 but 0x00E0 and 0x00EE, and only the program counter moves. -/
def Obligations.MachineCallIsNoOp : Prop :=
  (∀ nnn : Addr, nnn ≠ 0x0E0#12 → nnn ≠ 0x0EE#12 → decodeWord (0x0#4 ++ nnn) = .sys nnn) ∧
  ∀ (nnn : Addr) (s : State), ∃ t, exec (.sys nnn) s = .next t ∧ PcMoved 2 s t ∧ Keeps [] s t

/-- 1NNN sets the program counter to NNN and changes nothing else (R103); to itself, it changes nothing at all. -/
def Obligations.JumpSetsPc : Prop :=
  ∀ (nnn : Addr) (s : State), decodeWord (0x1#4 ++ nnn) = .jp nnn ∧
    (∃ t, exec (.jp nnn) s = .next t ∧ t.pc = nnn ∧ Keeps [] s t) ∧ exec (.jp s.pc) s = .next s

/-- 2NNN pushes its own address and jumps (R104); the unbounded stack (log entry 2) has always room. What an entry holds
is the spec's decision D11 (log entry 15). -/
def Obligations.CallPushesOwnAddress : Prop :=
  ∀ (nnn : Addr) (s : State), decodeWord (0x2#4 ++ nnn) = .call nnn ∧
    ∃ t, exec (.call nnn) s = .next t ∧ t.stack = s.pc :: s.stack ∧ t.pc = nnn ∧ Keeps [.stack] s t

/-- 00EE with an entry on the stack pops it and ends two past it (R102). -/
def Obligations.ReturnResumesAfterCall : Prop :=
  ∀ (s : State) (a : Addr) (rest : List Addr), s.stack = a :: rest → decodeWord 0x00EE#16 = .ret ∧
    ∃ t, exec .ret s = .next t ∧ t.stack = rest ∧ t.pc.toNat = (a.toNat + 2) % 4096 ∧ Keeps [.stack] s t

/-- 00EE on an empty stack takes StackUnderflow (R220, R221): only `HALTED` changes, `PC` stays at the 00EE; the step
transaction reports the fault, and so does every later step. The record in `HALTED` is the spec's decision D12, its
being a next state the model's reading (log entry 1). -/
def Obligations.ReturnOnEmptyStackHalts : Prop :=
  ∀ s : State, s.stack = [] →
    ∃ t, exec .ret s = .next t ∧ t.halted = .faulted (.stackUnderflow s.pc) ∧ t.pc = s.pc ∧ Keeps [.halted] s t ∧
      (s.halted = .running → fetchInstr s = .ret →
        stepCore s = some (t, .fault (.stackUnderflow s.pc)) ∧ step t = .fault (.stackUnderflow s.pc) ∧
        ∀ (font : Config.FontTable) (phase : Phase), phase ≠ .beforeReset →
          transact font ⟨s, phase⟩ .step = some (⟨t, .stepped⟩, .status (.fault (.stackUnderflow s.pc))))

/-- A call on a stack bounded at `n` entries (R225): with room it is the call of R104, and when the stack is full it takes
StackOverflow as R221 takes StackUnderflow. This is the operation 2NNN runs with the configured capacity. -/
def Obligations.BoundedStackOverflows : Prop :=
  ∀ (n : Nat) (nnn : Addr) (s : State), ∃ t, callSubroutine (some n) nnn s = .next t ∧
    if s.stack.length < n then t.stack = s.pc :: s.stack ∧ t.pc = nnn ∧ Keeps [.stack] s t
    else t.halted = .faulted (.stackOverflow s.pc) ∧ t.pc = s.pc ∧ Keeps [.halted] s t

/-- Nested calls return (R111, and the source's property L1-8): a call, a run in which every call has its return, and one
return leave the stack as it was and the program counter two past the first call. That no call faults rests on the
unbounded stack, the spec's decision D10 (log entry 2); what an entry holds is its D11 (log entry 15). -/
def Obligations.NestedCallsReturn : Prop :=
  ∀ (target : Addr) (body : List Instr) (s : State), Nested body →
    ∃ t, execAll (.call target :: (body ++ [.ret])) s = .next t ∧ t.stack = s.stack ∧ PcMoved 2 s t ∧
      t.halted = s.halted

/-- BNNN jumps to `V[0] + NNN`, mod 4096 (R105). -/
def Obligations.JumpByV0 : Prop :=
  ∀ (nnn : Addr) (s : State), decodeWord (0xB#4 ++ nnn) = .jpV0 nnn ∧
    ∃ t, exec (.jpV0 nnn) s = .next t ∧ t.pc.toNat = ((s.getV 0#4).toNat + nnn.toNat) % 4096 ∧ Keeps [] s t

/-- 3XNN and 4XNN skip on equality and on inequality with NN (R107, R108). -/
def Obligations.SkipOnImmediate : Prop :=
  ∀ (x : RegNum) (nn : Byte) (s : State),
    decodeWord (0x3#4 ++ x ++ nn) = .seImm x nn ∧ decodeWord (0x4#4 ++ x ++ nn) = .sneImm x nn ∧
    (∃ t, exec (.seImm x nn) s = .next t ∧ (if s.getV x = nn then PcMoved 4 s t else PcMoved 2 s t) ∧ Keeps [] s t) ∧
    (∃ t, exec (.sneImm x nn) s = .next t ∧ (if s.getV x = nn then PcMoved 2 s t else PcMoved 4 s t) ∧ Keeps [] s t)

/-- 5XY0 and 9XY0 skip on equality and on inequality of two registers, whatever the low nibble (R109, R110). The nibble's
being ignored is the spec's decision D15 (log entry 9). -/
def Obligations.SkipOnRegisters : Prop :=
  ∀ (x y n : BitVec 4) (s : State),
    decodeWord (0x5#4 ++ x ++ y ++ n) = .seReg x y ∧ decodeWord (0x9#4 ++ x ++ y ++ n) = .sneReg x y ∧
    (∃ t, exec (.seReg x y) s = .next t ∧
      (if s.getV x = s.getV y then PcMoved 4 s t else PcMoved 2 s t) ∧ Keeps [] s t) ∧
    (∃ t, exec (.sneReg x y) s = .next t ∧
      (if s.getV x = s.getV y then PcMoved 2 s t else PcMoved 4 s t) ∧ Keeps [] s t)

/-! ## Register loads, arithmetic and logic -/

/-- 6XNN writes NN (R130). -/
def Obligations.LoadImmediate : Prop :=
  ∀ (x : RegNum) (nn : Byte) (s : State), decodeWord (0x6#4 ++ x ++ nn) = .ldImm x nn ∧
    ∃ t, exec (.ldImm x nn) s = .next t ∧ t.getV x = nn ∧ PcMoved 2 s t ∧ Keeps [.reg x] s t

/-- 7XNN adds NN mod 256 and writes no flag (R131). -/
def Obligations.AddImmediateWithoutCarry : Prop :=
  ∀ (x : RegNum) (nn : Byte) (s : State), decodeWord (0x7#4 ++ x ++ nn) = .addImm x nn ∧
    ∃ t, exec (.addImm x nn) s = .next t ∧ (t.getV x).toNat = ((s.getV x).toNat + nn.toNat) % 256 ∧
      PcMoved 2 s t ∧ Keeps [.reg x] s t

/-- 8XY0 copies `V[Y]` (R132). -/
def Obligations.MoveRegister : Prop :=
  ∀ (x y : RegNum) (s : State), decodeWord (0x8#4 ++ x ++ y ++ 0x0#4) = .ldReg x y ∧
    ∃ t, exec (.ldReg x y) s = .next t ∧ t.getV x = s.getV y ∧ PcMoved 2 s t ∧ Keeps [.reg x] s t

/-- 8XY1, 8XY2 and 8XY3 are OR, AND and XOR, bit by bit, and write no flag (R133, R134, R135). -/
def Obligations.BitwiseLogic : Prop :=
  ∀ (x y : RegNum) (s : State),
    decodeWord (0x8#4 ++ x ++ y ++ 0x1#4) = .orReg x y ∧ decodeWord (0x8#4 ++ x ++ y ++ 0x2#4) = .andReg x y ∧
    decodeWord (0x8#4 ++ x ++ y ++ 0x3#4) = .xorReg x y ∧
    (∃ t, exec (.orReg x y) s = .next t ∧ PcMoved 2 s t ∧ Keeps [.reg x] s t ∧
      ∀ k, (t.getV x).getLsbD k = ((s.getV x).getLsbD k || (s.getV y).getLsbD k)) ∧
    (∃ t, exec (.andReg x y) s = .next t ∧ PcMoved 2 s t ∧ Keeps [.reg x] s t ∧
      ∀ k, (t.getV x).getLsbD k = ((s.getV x).getLsbD k && (s.getV y).getLsbD k)) ∧
    (∃ t, exec (.xorReg x y) s = .next t ∧ PcMoved 2 s t ∧ Keeps [.reg x] s t ∧
      ∀ k, (t.getV x).getLsbD k = ((s.getV x).getLsbD k ^^ (s.getV y).getLsbD k))

/-- 8XY4 (R136): the sum mod 256 in `V[X]`, and the carry in `VF` unless X is 15, where the sum stays. The order at X = 15
is the spec's decision D3 (log entry 8). -/
def Obligations.AddWithCarry : Prop :=
  ∀ (x y : RegNum) (s : State), decodeWord (0x8#4 ++ x ++ y ++ 0x4#4) = .addReg x y ∧
    ∃ t, exec (.addReg x y) s = .next t ∧ PcMoved 2 s t ∧ Keeps [.reg x, .reg vf] s t ∧
      (t.getV x).toNat = ((s.getV x).toNat + (s.getV y).toNat) % 256 ∧
      (x ≠ vf → (t.getV vf).toNat = if (s.getV x).toNat + (s.getV y).toNat > 255 then 1 else 0)

/-- 8XY5 (R137, R143): the borrow in `VF` first, then the difference of the registers as that write left them. The order
at X = 15 or Y = 15 is the spec's decision D3 (log entry 8). -/
def Obligations.SubtractWithBorrow : Prop :=
  ∀ (x y : RegNum) (s : State), decodeWord (0x8#4 ++ x ++ y ++ 0x5#4) = .subReg x y ∧
    ∃ t, exec (.subReg x y) s = .next t ∧ PcMoved 2 s t ∧ Keeps [.reg x, .reg vf] s t ∧
      (let a := (s.getV x).toNat
       let b := (s.getV y).toNat
       let f := if b > a then 1 else 0
       (x ≠ vf → (t.getV vf).toNat = f) ∧
       (x ≠ vf → y ≠ vf → (t.getV x).toNat = (a + 256 - b) % 256) ∧
       (x ≠ vf → y = vf → (t.getV x).toNat = (a + 256 - f) % 256) ∧
       (x = vf → y ≠ vf → (t.getV vf).toNat = (f + 256 - b) % 256) ∧
       (x = vf → y = vf → t.getV vf = 0#8))

/-- 8XY7 (R139, R143): the borrow of `V[Y] − V[X]` in `VF` first, then that difference of the registers as that write left
them. The order at X = 15 or Y = 15 is the spec's decision D3 (log entry 8). -/
def Obligations.ReverseSubtractWithBorrow : Prop :=
  ∀ (x y : RegNum) (s : State), decodeWord (0x8#4 ++ x ++ y ++ 0x7#4) = .subnReg x y ∧
    ∃ t, exec (.subnReg x y) s = .next t ∧ PcMoved 2 s t ∧ Keeps [.reg x, .reg vf] s t ∧
      (let a := (s.getV x).toNat
       let b := (s.getV y).toNat
       let f := if b < a then 1 else 0
       (x ≠ vf → (t.getV vf).toNat = f) ∧
       (x ≠ vf → y ≠ vf → (t.getV x).toNat = (b + 256 - a) % 256) ∧
       (x ≠ vf → y = vf → (t.getV x).toNat = (f + 256 - a) % 256) ∧
       (x = vf → y ≠ vf → (t.getV vf).toNat = (b + 256 - f) % 256) ∧
       (x = vf → y = vf → t.getV vf = 0#8))

/-- 8XY6 (R138, R143): half of `V[X]`, its bit 0 in `VF`, whatever Y; with X = 15, `VF` ends 0. The order at X = 15 is the
spec's decision D3 (log entry 8). -/
def Obligations.ShiftRightByOne : Prop :=
  ∀ (x y : RegNum) (s : State), decodeWord (0x8#4 ++ x ++ y ++ 0x6#4) = .shr x y ∧
    ∃ t, exec (.shr x y) s = .next t ∧ PcMoved 2 s t ∧ Keeps [.reg x, .reg vf] s t ∧
      (x ≠ vf → (t.getV x).toNat = (s.getV x).toNat / 2 ∧ (t.getV vf).toNat = (s.getV x).toNat % 2) ∧
      (x = vf → t.getV vf = 0#8)

/-- 8XYE (R140, R143): twice `V[X]` mod 256, its bit 7 in `VF`, whatever Y; with X = 15, `VF` ends at twice that bit. The
order at X = 15 is the spec's decision D3 (log entry 8). -/
def Obligations.ShiftLeftByOne : Prop :=
  ∀ (x y : RegNum) (s : State), decodeWord (0x8#4 ++ x ++ y ++ 0xE#4) = .shl x y ∧
    ∃ t, exec (.shl x y) s = .next t ∧ PcMoved 2 s t ∧ Keeps [.reg x, .reg vf] s t ∧
      (x ≠ vf → (t.getV x).toNat = 2 * (s.getV x).toNat % 256 ∧ (t.getV vf).toNat = (s.getV x).toNat / 128) ∧
      (x = vf → (t.getV vf).toNat = 2 * ((s.getV x).toNat / 128))

/-- CXNN (R141): the next free byte AND NN; the draw is used up. It holds whatever the draws are, so the bits NN clears
are 0 and nothing is said of the others. The free byte and its count are the model's form (log entry 5). -/
def Obligations.RandomAndMask : Prop :=
  ∀ (x : RegNum) (nn : Byte) (s : State), decodeWord (0xC#4 ++ x ++ nn) = .rnd x nn ∧
    ∃ t, exec (.rnd x nn) s = .next t ∧ PcMoved 2 s t ∧ Keeps [.reg x, .draws] s t ∧ t.draws = s.draws + 1 ∧
      ∀ k, (t.getV x).getLsbD k = ((Config.rand8 s.draws).getLsbD k && nn.getLsbD k)

/-! ## Index register and memory -/

/-- ANNN sets the index (R161). -/
def Obligations.SetIndex : Prop :=
  ∀ (nnn : Addr) (s : State), decodeWord (0xA#4 ++ nnn) = .ldI nnn ∧
    ∃ t, exec (.ldI nnn) s = .next t ∧ t.i = nnn ∧ PcMoved 2 s t ∧ Keeps [.i] s t

/-- FX1E adds to the index mod 4096 and writes no flag (R162). -/
def Obligations.AddToIndex : Prop :=
  ∀ (x : RegNum) (s : State), decodeWord (0xF#4 ++ x ++ 0x1E#8) = .addI x ∧
    ∃ t, exec (.addI x) s = .next t ∧ t.i.toNat = (s.i.toNat + (s.getV x).toNat) % 4096 ∧ PcMoved 2 s t ∧
      Keeps [.i] s t

/-- FX29 points the index at the glyph of the low nibble (R163). -/
def Obligations.FontGlyphAddress : Prop :=
  ∀ (x : RegNum) (s : State), decodeWord (0xF#4 ++ x ++ 0x29#8) = .ldFont x ∧
    ∃ t, exec (.ldFont x) s = .next t ∧ t.i.toNat = 5 * ((s.getV x).toNat % 16) ∧ PcMoved 2 s t ∧ Keeps [.i] s t

/-- FX33 stores the three decimal digits at `I`, `I + 1`, `I + 2`, mod 4096, and no other byte (R164). -/
def Obligations.BcdStoresDigits : Prop :=
  ∀ (x : RegNum) (s : State), decodeWord (0xF#4 ++ x ++ 0x33#8) = .ldBcd x ∧
    ∃ t, exec (.ldBcd x) s = .next t ∧ PcMoved 2 s t ∧ Keeps (byteParts s 3) s t ∧
      (memRead t.mem s.i.toNat).toNat = (s.getV x).toNat / 100 ∧
      (memRead t.mem (s.i.toNat + 1)).toNat = (s.getV x).toNat / 10 % 10 ∧
      (memRead t.mem (s.i.toNat + 2)).toNat = (s.getV x).toNat % 10

/-- FX55 stores `V[0]` to `V[X]` at `I` to `I + X`, mod 4096, and no other byte; `I` is unchanged (R165). -/
def Obligations.StoreRegisters : Prop :=
  ∀ (x : RegNum) (s : State), decodeWord (0xF#4 ++ x ++ 0x55#8) = .storeRegs x ∧
    ∃ t, exec (.storeRegs x) s = .next t ∧ PcMoved 2 s t ∧ Keeps (byteParts s (x.toNat + 1)) s t ∧
      ∀ r : RegNum, r.toNat ≤ x.toNat → memRead t.mem (s.i.toNat + r.toNat) = s.getV r

/-- FX65 loads `V[0]` to `V[X]` from `I` to `I + X`, mod 4096, and no other register; `I` is unchanged (R166). -/
def Obligations.LoadRegisters : Prop :=
  ∀ (x : RegNum) (s : State), decodeWord (0xF#4 ++ x ++ 0x65#8) = .loadRegs x ∧
    ∃ t, exec (.loadRegs x) s = .next t ∧ PcMoved 2 s t ∧ Keeps (regParts x) s t ∧
      ∀ r : RegNum, r.toNat ≤ x.toNat → t.getV r = memRead s.mem (s.i.toNat + r.toNat)

/-- The round trip of FX55 and FX65 (R167): from any later state with the same `I` and the same bytes at `I` to `I + X`,
FX65 gives back the registers FX55 stored. -/
def Obligations.StoreLoadRoundTrip : Prop :=
  ∀ (x : RegNum) (s : State), ∃ t, exec (.storeRegs x) s = .next t ∧
    ∀ u : State, u.i = t.i → (∀ k ≤ x.toNat, memRead u.mem (t.i.toNat + k) = memRead t.mem (t.i.toNat + k)) →
      ∃ w, exec (.loadRegs x) u = .next w ∧ ∀ r : RegNum, r.toNat ≤ x.toNat → w.getV r = s.getV r

/-- A fetch sees the stores of earlier steps (R64), for FX55: when it stores `V[0]` and `V[1]` over the instruction after
it, the next step executes the word of those two bytes. With the FX55 at 0xFFD that instruction has its second byte at
0x000, which is the spec's decision D2 (log entry 7). -/
def Obligations.FetchSeesEarlierStores : Prop :=
  ∀ (x : RegNum) (s : State), 1 ≤ x.toNat → s.i = s.pc + 2#12 → s.halted = .running → fetchInstr s = .storeRegs x →
    ∃ t, step s = .next t ∧ PcMoved 2 s t ∧ step t = exec (decodeWord (s.getV 0#4 ++ s.getV 1#4)) t

/-! ## Display -/

/-- 00E0 clears every cell and leaves `VF` alone (R180). -/
def Obligations.ClearDisplay : Prop :=
  ∀ s : State, decodeWord 0x00E0#16 = .cls ∧
    ∃ t, exec .cls s = .next t ∧ PcMoved 2 s t ∧ Keeps [.disp] s t ∧ ∀ x < 64, ∀ y < 32, cellAt t.disp x y = false

/-- DXYN with neither X nor Y 15 (R181 to R184): every cell is XORed with the sprite's pixel on it, `VF` is the collision.
The order of a row's bits and the width of the coordinates are the spec's decisions D32 and D5 (log entries 10, 11). -/
def Obligations.DrawXorsSprite : Prop :=
  ∀ (x y n : BitVec 4) (s : State), x ≠ vf → y ≠ vf → decodeWord (0xD#4 ++ x ++ y ++ n) = .drw x y n ∧
    ∃ t, exec (.drw x y n) s = .next t ∧ PcMoved 2 s t ∧ Keeps [.disp, .reg vf] s t ∧
      (∀ px < 64, ∀ py < 32, cellAt t.disp px py =
        (cellAt s.disp px py ^^ spriteCovers s (s.getV x).toNat (s.getV y).toNat n.toNat px py)) ∧
      t.getV vf = if spriteCollides s (s.getV x).toNat (s.getV y).toNat n.toNat then 1#8 else 0#8

/-- DXYN in every form, X or Y = 15 included (R181, R185): it completes as the draw under the open parameter
`DRAW_COORD_READ`; nothing but the display and `VF` changes, and `VF` ends 0 or 1. With neither X nor Y 15 the three
readings give one result. The parameter is left open (log entry 4). -/
def Obligations.DrawCompletesUnderEveryReading : Prop :=
  ∀ (x y n : BitVec 4) (s : State),
    exec (.drw x y n) s = .next (drawSprite Config.drawCoordRead x y n s).advance ∧
    (∀ m : DrawCoordRead, Keeps [.disp, .reg vf] s (drawSprite m x y n s) ∧
      ((drawSprite m x y n s).getV vf = 0#8 ∨ (drawSprite m x y n s).getV vf = 1#8)) ∧
    (x ≠ vf → y ≠ vf → ∀ m m' : DrawCoordRead, drawSprite m x y n s = drawSprite m' x y n s)

/-- DXYN when X or Y may be 15, under each reading of R185: read once before the clear, the coordinates are the old
registers; read once after it, a register that is `VF` counts 0; read at each pixel, it counts 0 up to and with the first
collision in drawing order and 1 for the pixels after it, and without a collision the result is that of the second
reading. The reading is the open parameter of D4 (log entry 4); which cells a sprite covers rests on the spec's decisions
D32 and D5 (log entries 10, 11). -/
def Obligations.DrawWithFlagCoordinate : Prop :=
  ∀ (x y n : BitVec 4) (s : State),
    let x₁ := if x = vf then 0 else (s.getV x).toNat
    let y₁ := if y = vf then 0 else (s.getV y).toNat
    let x₂ := if x = vf then 1 else (s.getV x).toNat
    let y₂ := if y = vf then 1 else (s.getV y).toNat
    (∀ px < 64, ∀ py < 32, cellAt (drawSprite .beforeClear x y n s).disp px py =
      (cellAt s.disp px py ^^ spriteCovers s (s.getV x).toNat (s.getV y).toNat n.toNat px py)) ∧
    ((drawSprite .beforeClear x y n s).getV vf =
      if spriteCollides s (s.getV x).toNat (s.getV y).toNat n.toNat then 1#8 else 0#8) ∧
    (∀ px < 64, ∀ py < 32, cellAt (drawSprite .afterClear x y n s).disp px py =
      (cellAt s.disp px py ^^ spriteCovers s x₁ y₁ n.toNat px py)) ∧
    ((drawSprite .afterClear x y n s).getV vf = if spriteCollides s x₁ y₁ n.toNat then 1#8 else 0#8) ∧
    (spriteCollides s x₁ y₁ n.toNat = false → drawSprite .live x y n s = drawSprite .afterClear x y n s) ∧
    (∀ k < 8 * n.toNat, pixelCollides s x₁ y₁ k = true → (∀ j < k, pixelCollides s x₁ y₁ j = false) →
      (∀ px < 64, ∀ py < 32, cellAt (drawSprite .live x y n s).disp px py =
        (cellAt s.disp px py ^^ spriteCoversPart (fun j => j ≤ k) s x₁ y₁ n.toNat px py ^^
          spriteCoversPart (fun j => k < j) s x₂ y₂ n.toNat px py)) ∧
      (drawSprite .live x y n s).getV vf = 1#8)

/-- Drawing twice restores the display (R186): with X and Y not 15 and the same `I`, height and sprite bytes, the second
DXYN brings every cell back, and its `VF` is 1 exactly when some set sprite pixel lies on a cell that was 0 before the
first draw. Which cells the pixels lie on rests on the spec's decisions D5 and D32 (log entries 11, 10). -/
def Obligations.DrawTwiceRestores : Prop :=
  ∀ (x y n : BitVec 4) (s : State), x ≠ vf → y ≠ vf →
    ∃ t u, exec (.drw x y n) s = .next t ∧ exec (.drw x y n) t = .next u ∧
      (∀ px < 64, ∀ py < 32, cellAt u.disp px py = cellAt s.disp px py) ∧
      (u.getV vf = 0#8 ∨ u.getV vf = 1#8) ∧
      (u.getV vf = 1#8 ↔ ∃ px < 64, ∃ py < 32, cellAt s.disp px py = false ∧
        spriteCovers s (s.getV x).toNat (s.getV y).toNat n.toNat px py = true)

/-! ## Keys and timers -/

/-- EX9E and EXA1 skip when key `V[X] AND 0xF` is held, and when it is not (R200, R201). -/
def Obligations.SkipOnKey : Prop :=
  ∀ (x : RegNum) (s : State),
    decodeWord (0xE#4 ++ x ++ 0x9E#8) = .skp x ∧ decodeWord (0xE#4 ++ x ++ 0xA1#8) = .sknp x ∧
    (∃ t, exec (.skp x) s = .next t ∧ Keeps [] s t ∧
      (if s.keys.getLsbD ((s.getV x).toNat % 16) then PcMoved 4 s t else PcMoved 2 s t)) ∧
    (∃ t, exec (.sknp x) s = .next t ∧ Keeps [] s t ∧
      (if s.keys.getLsbD ((s.getV x).toNat % 16) then PcMoved 2 s t else PcMoved 4 s t))

/-- FX0A (R203): with no key held nothing changes, the program counter included; else `V[X]` is the smallest key held. -/
def Obligations.WaitForKey : Prop :=
  ∀ (x : RegNum) (s : State), decodeWord (0xF#4 ++ x ++ 0x0A#8) = .ldKey x ∧
    (s.keys = 0#16 → exec (.ldKey x) s = .next s) ∧
    (s.keys ≠ 0#16 → ∃ t, exec (.ldKey x) s = .next t ∧ PcMoved 2 s t ∧ Keeps [.reg x] s t ∧
      s.keys.getLsbD (t.getV x).toNat = true ∧ ∀ k < (t.getV x).toNat, s.keys.getLsbD k = false)

/-- Runs that stand still: a core at FX0A with no key held (R206), and a core at a jump to itself, which has ended well
(R266), take every number of steps without a change; a key press ends the first. At PC = 0xFFF the instruction there has its
second byte at 0x000, the spec's decision D2 (log entry 7). -/
def Obligations.RunsThatStandStill : Prop :=
  (∀ (x : RegNum) (s : State) (n : Nat), s.halted = .running → fetchInstr s = .ldKey x → s.keys = 0#16 →
    Host.Core.run Sys2Proof.core n s = .next s ∧
    ∀ m, oneHot m = true → ∃ t, step (pressKey m s) = .next t ∧ PcMoved 2 s t) ∧
  ∀ (e : Addr) (s : State) (n : Nat), EndsWell e s → Host.Core.run Sys2Proof.core n s = .next s

/-- FX07 reads the delay timer, FX15 writes it and FX18 writes the sound timer (R202, R204, R205). -/
def Obligations.TimerMoves : Prop :=
  ∀ (x : RegNum) (s : State),
    decodeWord (0xF#4 ++ x ++ 0x07#8) = .ldFromDt x ∧ decodeWord (0xF#4 ++ x ++ 0x15#8) = .ldDt x ∧
    decodeWord (0xF#4 ++ x ++ 0x18#8) = .ldSt x ∧
    (∃ t, exec (.ldFromDt x) s = .next t ∧ t.getV x = s.dt ∧ PcMoved 2 s t ∧ Keeps [.reg x] s t) ∧
    (∃ t, exec (.ldDt x) s = .next t ∧ t.dt = s.getV x ∧ PcMoved 2 s t ∧ Keeps [.dt] s t) ∧
    (∃ t, exec (.ldSt x) s = .next t ∧ t.st = s.getV x ∧ PcMoved 2 s t ∧ Keeps [.st] s t)

/-! ## The host's transactions -/

/-- Key events (R242, R243): with the mask of key `k`, bit `k` of `KEYS` is set or cleared and nothing else changes; a
mask that is not one-hot has no move, which is the spec's decision D18 (log entry 14). -/
def Obligations.KeyEvents : Prop :=
  ∀ (font : Config.FontTable) (ses : Session) (m : Word), ses.phase ≠ .beforeReset →
    (∀ k < 16, m = 1#16 <<< k →
      (∃ t, transact font ses (.keyPressed m) = some (⟨t, ses.phase⟩, .done) ∧ t.pc = ses.core.pc ∧
        Keeps [.keys] ses.core t ∧ ∀ j, t.keys.getLsbD j = (ses.core.keys.getLsbD j || j == k)) ∧
      (∃ t, transact font ses (.keyReleased m) = some (⟨t, ses.phase⟩, .done) ∧ t.pc = ses.core.pc ∧
        Keeps [.keys] ses.core t ∧ ∀ j, t.keys.getLsbD j = (ses.core.keys.getLsbD j && j != k))) ∧
    ((∀ k < 16, m ≠ 1#16 <<< k) →
      transact font ses (.keyPressed m) = none ∧ transact font ses (.keyReleased m) = none)

/-- The timer tick (R244): each timer one less, a zero timer at zero, nothing else. The stop at zero is the spec's
decision D9, the one tick for both its D21 (log entry 13). -/
def Obligations.TimerTick : Prop :=
  ∀ (font : Config.FontTable) (ses : Session), ses.phase ≠ .beforeReset →
    ∃ t, transact font ses .timerTick = some (⟨t, ses.phase⟩, .done) ∧ t.pc = ses.core.pc ∧
      t.dt.toNat = ses.core.dt.toNat - 1 ∧ t.st.toNat = ses.core.st.toNat - 1 ∧ Keeps [.dt, .st] ses.core t

/-- The ROM load (R241): after a reset and before the first step, byte `k` of at most 3584 lands at `0x200 + k` and
nothing else changes; a longer ROM, or a load once a step was taken, has no move, which is the spec's decision D23 (log
entry 14). A reset and a load from any session give the launch state of R264: the font the core has at 0 to 79, the ROM
from 0x200 on, 0 in every other byte (D29), and every other element as `State.reset` has it, the model's count of draws
apart. -/
def Obligations.RomLoad : Prop :=
  (∀ (font : Config.FontTable) (ses : Session) (rom : List Byte),
    (ses.phase = .loadable → rom.length ≤ 3584 →
      ∃ t, transact font ses (.load rom) = some (⟨t, .loadable⟩, .done) ∧ t.pc = ses.core.pc ∧
        Keeps ((List.range rom.length).map (fun k => .byte (0x200 + k))) ses.core t ∧
        ∀ (k : Nat) (h : k < rom.length), memRead t.mem (0x200 + k) = rom[k]) ∧
    (ses.phase = .stepped ∨ 3584 < rom.length → transact font ses (.load rom) = none)) ∧
  ∀ (font : Config.FontTable) (ses : Session) (rom : List Byte), rom.length ≤ 3584 →
    ∃ t, transactAll font [.reset, .load rom] ses = some ⟨t, .loadable⟩ ∧ t.pc = 0x200#12 ∧
      Keeps (.draws :: (List.range 4096).map .byte) State.reset t ∧
      (∀ (a : Nat) (h : a < 80), memRead t.mem a = Config.fontByte font a h) ∧
      (∀ (k : Nat) (h : k < rom.length), memRead t.mem (0x200 + k) = rom[k]) ∧
      ∀ a, 80 ≤ a → a < 4096 → a < 0x200 ∨ 0x200 + rom.length ≤ a → memRead t.mem a = 0#8

/-- What the host can reach (R245, R246, R248): a read returns the cells row by row or `ST` and changes nothing; and no
transaction but reset and step changes V, I, PC, STACK or DISP, nor any but load beside them a byte of memory. The row
order of the cells is the spec's decision D6 (log entry 16). -/
def Obligations.HostReachesNothingElse : Prop :=
  (∀ (font : Config.FontTable) (ses : Session), ses.phase ≠ .beforeReset →
    transact font ses .readSoundTimer = some (ses, .soundTimer ses.core.st) ∧
    ∃ cells : List Byte, transact font ses .readDisplay = some (ses, .display cells) ∧ cells.length = 2048 ∧
      ∀ x < 64, ∀ y < 32, cells[y * 64 + x]? = some (if cellAt ses.core.disp x y then 1#8 else 0#8)) ∧
  ∀ (font : Config.FontTable) (ses ses' : Session) (x : Transaction) (r : Response),
    transact font ses x = some (ses', r) → x ≠ .reset → x ≠ .step →
    (∀ v, ses'.core.getV v = ses.core.getV v) ∧ ses'.core.i = ses.core.i ∧ ses'.core.pc = ses.core.pc ∧
    ses'.core.stack = ses.core.stack ∧ ses'.core.disp = ses.core.disp ∧
    ((∀ rom, x ≠ .load rom) → ∀ a, memRead ses'.core.mem a = memRead ses.core.mem a)

/-- The step transaction of a running core (R240): whatever the instruction but a return on an empty stack, it takes the
step, reports `Ok` and leaves a session that has stepped, so that a load has no move any more (R241). That a 2NNN reports
`Ok` too rests on the unbounded stack, the spec's decision D10 (log entry 2). -/
def Obligations.StepTransactionReportsOk : Prop :=
  ∀ (font : Config.FontTable) (ses : Session), ses.phase ≠ .beforeReset → ses.core.halted = .running →
    ¬ (fetchInstr ses.core = .ret ∧ ses.core.stack = []) →
    ∃ t, step ses.core = .next t ∧ transact font ses .step = some (⟨t, .stepped⟩, .status .ok)
end

