-- ==== Sys2Proof/Laws/Decode.lean ====
section
/-! SUPPORT. The fields of a word written in each format of R71, and the word that fields make up: what the proofs about
decoding rest on. -/

namespace Sys2Proof

/-! ## Fields of a word in the ADDR format -/

@[simp] theorem opField_addr (a : BitVec 4) (n : Addr) : opField (a ++ n) = a := by
  have h : BitVec.extractLsb' 12 4 (a ++ n : BitVec (4 + 12)) = a := by
    apply BitVec.eq_of_getLsbD_eq; intro k hk
    simp only [BitVec.getLsbD_extractLsb', BitVec.getLsbD_append, hk, decide_true, Bool.true_and]
    repeat' split
    all_goals first | omega | (congr 1; omega)
  exact h

@[simp] theorem nnnField_addr (a : BitVec 4) (n : Addr) : nnnField (a ++ n) = n := by
  have h : BitVec.extractLsb' 0 12 (a ++ n : BitVec (4 + 12)) = n := by
    apply BitVec.eq_of_getLsbD_eq; intro k hk
    simp only [BitVec.getLsbD_extractLsb', BitVec.getLsbD_append, hk, decide_true, Bool.true_and]
    repeat' split
    all_goals first | omega | (congr 1; omega)
  exact h

/-! ## Fields of a word in the REG_IMM and REG_SUB formats -/

@[simp] theorem opField_imm (a x : BitVec 4) (n : Byte) : opField (a ++ x ++ n) = a := by
  have h : BitVec.extractLsb' 12 4 (a ++ x ++ n : BitVec (4 + 4 + 8)) = a := by
    apply BitVec.eq_of_getLsbD_eq; intro k hk
    simp only [BitVec.getLsbD_extractLsb', BitVec.getLsbD_append, hk, decide_true, Bool.true_and]
    repeat' split
    all_goals first | omega | (congr 1; omega)
  exact h

@[simp] theorem xField_imm (a x : BitVec 4) (n : Byte) : xField (a ++ x ++ n) = x := by
  have h : BitVec.extractLsb' 8 4 (a ++ x ++ n : BitVec (4 + 4 + 8)) = x := by
    apply BitVec.eq_of_getLsbD_eq; intro k hk
    simp only [BitVec.getLsbD_extractLsb', BitVec.getLsbD_append, hk, decide_true, Bool.true_and]
    repeat' split
    all_goals first | omega | (congr 1; omega)
  exact h

@[simp] theorem nnField_imm (a x : BitVec 4) (n : Byte) : nnField (a ++ x ++ n) = n := by
  have h : BitVec.extractLsb' 0 8 (a ++ x ++ n : BitVec (4 + 4 + 8)) = n := by
    apply BitVec.eq_of_getLsbD_eq; intro k hk
    simp only [BitVec.getLsbD_extractLsb', BitVec.getLsbD_append, hk, decide_true, Bool.true_and]
    repeat' split
    all_goals first | omega | (congr 1; omega)
  exact h

/-! ## Fields of a word in the REG_REG format -/

@[simp] theorem opField_reg (a x y n : BitVec 4) : opField (a ++ x ++ y ++ n) = a := by
  have h : BitVec.extractLsb' 12 4 (a ++ x ++ y ++ n : BitVec (4 + 4 + 4 + 4)) = a := by
    apply BitVec.eq_of_getLsbD_eq; intro k hk
    simp only [BitVec.getLsbD_extractLsb', BitVec.getLsbD_append, hk, decide_true, Bool.true_and]
    repeat' split
    all_goals first | omega | (congr 1; omega)
  exact h

@[simp] theorem xField_reg (a x y n : BitVec 4) : xField (a ++ x ++ y ++ n) = x := by
  have h : BitVec.extractLsb' 8 4 (a ++ x ++ y ++ n : BitVec (4 + 4 + 4 + 4)) = x := by
    apply BitVec.eq_of_getLsbD_eq; intro k hk
    simp only [BitVec.getLsbD_extractLsb', BitVec.getLsbD_append, hk, decide_true, Bool.true_and]
    repeat' split
    all_goals first | omega | (congr 1; omega)
  exact h

@[simp] theorem yField_reg (a x y n : BitVec 4) : yField (a ++ x ++ y ++ n) = y := by
  have h : BitVec.extractLsb' 4 4 (a ++ x ++ y ++ n : BitVec (4 + 4 + 4 + 4)) = y := by
    apply BitVec.eq_of_getLsbD_eq; intro k hk
    simp only [BitVec.getLsbD_extractLsb', BitVec.getLsbD_append, hk, decide_true, Bool.true_and]
    repeat' split
    all_goals first | omega | (congr 1; omega)
  exact h

@[simp] theorem nField_reg (a x y n : BitVec 4) : nField (a ++ x ++ y ++ n) = n := by
  have h : BitVec.extractLsb' 0 4 (a ++ x ++ y ++ n : BitVec (4 + 4 + 4 + 4)) = n := by
    apply BitVec.eq_of_getLsbD_eq; intro k hk
    simp only [BitVec.getLsbD_extractLsb', BitVec.getLsbD_append, hk, decide_true, Bool.true_and]
    repeat' split
    all_goals first | omega | (congr 1; omega)
  exact h

/-! ## A word is made of its fields -/

theorem word_eq_addr (w : Word) : opField w ++ nnnField w = w := by
  have h : (opField w ++ nnnField w : BitVec (4 + 12)) = w := by
    apply BitVec.eq_of_getLsbD_eq; intro k hk
    simp only [opField, nnnField, BitVec.getLsbD_extractLsb', BitVec.getLsbD_append]
    repeat' split
    all_goals (rw [decide_eq_true (by omega), Bool.true_and]; congr 1; omega)
  exact h

theorem word_eq_imm (w : Word) : opField w ++ xField w ++ nnField w = w := by
  have h : (opField w ++ xField w ++ nnField w : BitVec (4 + 4 + 8)) = w := by
    apply BitVec.eq_of_getLsbD_eq; intro k hk
    simp only [opField, xField, nnField, BitVec.getLsbD_extractLsb', BitVec.getLsbD_append]
    repeat' split
    all_goals (rw [decide_eq_true (by omega), Bool.true_and]; congr 1; omega)
  exact h

theorem word_eq_reg (w : Word) : opField w ++ xField w ++ yField w ++ nField w = w := by
  have h : (opField w ++ xField w ++ yField w ++ nField w : BitVec (4 + 4 + 4 + 4)) = w := by
    apply BitVec.eq_of_getLsbD_eq; intro k hk
    simp only [opField, xField, yField, nField, BitVec.getLsbD_extractLsb', BitVec.getLsbD_append]
    repeat' split
    all_goals (rw [decide_eq_true (by omega), Bool.true_and]; congr 1; omega)
  exact h

/-! ## Fields as numbers -/

theorem opField_toNat (w : Word) : (opField w).toNat = w.toNat / 4096 := by
  have := w.isLt
  simp [opField, BitVec.extractLsb'_toNat, Nat.shiftRight_eq_div_pow]; omega

theorem nField_toNat (w : Word) : (nField w).toNat = w.toNat % 16 := by
  simp [nField, BitVec.extractLsb'_toNat]

theorem nnField_toNat (w : Word) : (nnField w).toNat = w.toNat % 256 := by
  simp [nnField, BitVec.extractLsb'_toNat]

end Sys2Proof
end

