-- ==== Sys2Proof/Laws/Memory.lean ====
section
/-! SUPPORT. The laws of memory: a read after a write gives the byte written and a write leaves every other byte alone
(R51, R52), a run of stores writes its bytes and nothing else (R53, R57), and every operation keeps the canonical form. -/

namespace Sys2Proof.Machine

/-- Putting a cell in front of the cells above it does not change the byte of another address. -/
theorem lookupCell_insertCell_ne (c : Host.Cell) (m : Memory) (a : Nat) (h : c.1 ≠ a) :
    lookupCell (insertCell c m) a = lookupCell m a := by
  induction m with
  | nil => simp [insertCell, lookupCell, h]
  | cons d rest ih =>
    by_cases hlt : c.1 < d.1
    · simp [insertCell, hlt, lookupCell, h]
    · simp only [insertCell, hlt, if_false, lookupCell, ih]

/-- A cell put in is the one read, when no cell of that address was there. -/
theorem lookupCell_insertCell_self (c : Host.Cell) (m : Memory) (h : ∀ d ∈ m, d.1 ≠ c.1) :
    lookupCell (insertCell c m) c.1 = c.2 := by
  induction m with
  | nil => simp [insertCell, lookupCell]
  | cons d rest ih =>
    have hrest : ∀ e ∈ rest, e.1 ≠ c.1 := fun e he => h e (List.mem_cons_of_mem _ he)
    by_cases hlt : c.1 < d.1
    · simp [insertCell, hlt, lookupCell]
    · simp [insertCell, hlt, lookupCell, h d (by simp), ih hrest]

/-- Taking out the cells of one address does not change the byte of another. -/
theorem lookupCell_filter_ne (m : Memory) (a b : Nat) (h : a ≠ b) :
    lookupCell (m.filter (fun c => c.1 != a)) b = lookupCell m b := by
  induction m with
  | nil => rfl
  | cons d rest ih =>
    by_cases hd : d.1 = a
    · have hb : d.1 ≠ b := hd ▸ h
      simp [hd, lookupCell, ih, h]
    · simp [hd, lookupCell, ih]

/-- With its cells taken out, an address reads as its reset contents. -/
theorem lookupCell_filter_self (m : Memory) (a : Nat) :
    lookupCell (m.filter (fun c => c.1 != a)) a = resetByte a := by
  induction m with
  | nil => rfl
  | cons d rest ih => by_cases hd : d.1 = a <;> simp [hd, lookupCell, ih]

/-- What `memWrite` can do, said once: the byte at the address, taken mod 4096, is the one written, and every other byte
reads as before (R52). It holds of every list of cells, canonical or not. -/
theorem memRead_memWrite (m : Memory) (a b : Nat) (v : Byte) :
    memRead (memWrite m a v) b = if b % memSize = a % memSize then v else memRead m b := by
  unfold memRead memWrite
  by_cases hab : b % memSize = a % memSize
  · by_cases hv : v = resetByte (a % memSize)
    · simp [hab, hv, lookupCell_filter_self]
    · simp only [hab, hv, if_true, if_false]
      exact lookupCell_insertCell_self _ _ (fun d hd => by simpa using (List.mem_filter.mp hd).2)
  · have hne : a % memSize ≠ b % memSize := fun e => hab e.symm
    by_cases hv : v = resetByte (a % memSize)
    · simp [hab, hv, lookupCell_filter_ne _ _ _ hne]
    · simp only [hab, hv, if_false]
      rw [lookupCell_insertCell_ne _ _ _ hne, lookupCell_filter_ne _ _ _ hne]

/-- Addresses count mod 4096 (R51). -/
theorem memRead_mod (m : Memory) (a : Nat) : memRead m (a % memSize) = memRead m a := by
  simp [memRead]

/-- What a run of stores can do, said once: the byte at offset `k` of the run is the list's byte `k`, when the run is no
longer than memory. -/
theorem memRead_storeBytes (bs : List Byte) (m : Memory) (a b : Nat) (hlen : bs.length ≤ memSize) :
    memRead (storeBytes m a bs) b = (bs[(b + memSize - a % memSize) % memSize]?).getD (memRead m b) := by
  induction bs generalizing m a with
  | nil => simp [storeBytes]
  | cons x rest ih =>
    have hrest : rest.length ≤ memSize := by simp at hlen; omega
    rw [storeBytes, ih _ _ hrest, memRead_memWrite]
    simp only [memSize] at *
    by_cases hab : b % 4096 = a % 4096
    · have h0 : (b + 4096 - a % 4096) % 4096 = 0 := by omega
      have h1 : (b + 4096 - (a + 1) % 4096) % 4096 = 4095 := by omega
      have h2 : rest[4095]? = none := by simp at hlen ⊢; omega
      simp [hab, h0, h1, h2]
    · have h1 : (b + 4096 - a % 4096) % 4096 = (b + 4096 - (a + 1) % 4096) % 4096 + 1 := by omega
      simp [hab, h1]

/-- A byte that no offset of the run reaches reads as before. -/
theorem memRead_storeBytes_other (bs : List Byte) (m : Memory) (a b : Nat)
    (h : ∀ k < bs.length, b % memSize ≠ (a + k) % memSize) : memRead (storeBytes m a bs) b = memRead m b := by
  induction bs generalizing m a with
  | nil => rfl
  | cons x rest ih =>
    have h0 : b % memSize ≠ a % memSize := by simpa using h 0 (by simp)
    have hr : ∀ k < rest.length, b % memSize ≠ (a + 1 + k) % memSize := fun k hk => by
      have := h (k + 1) (by simpa using hk)
      rwa [show a + (k + 1) = a + 1 + k by omega] at this
    rw [storeBytes, ih _ _ hr, memRead_memWrite, if_neg h0]

/-- The byte at offset `k` of a run of stores no longer than memory. -/
theorem memRead_storeBytes_at (bs : List Byte) (m : Memory) (a k : Nat) (hlen : bs.length ≤ memSize)
    (hk : k < bs.length) : memRead (storeBytes m a bs) (a + k) = bs[k] := by
  rw [memRead_storeBytes bs m a (a + k) hlen]
  have : (a + k + memSize - a % memSize) % memSize = k := by simp only [memSize] at *; omega
  simp [this, hk]

/-! ## The canonical form -/

theorem mem_insertCell {c e : Host.Cell} {m : Memory} : e ∈ insertCell c m ↔ e = c ∨ e ∈ m := by
  induction m with
  | nil => simp [insertCell]
  | cons d rest ih =>
    by_cases hlt : c.1 < d.1
    · simp [insertCell, hlt]
    · simp [insertCell, hlt, ih]
      tauto

theorem insertCell_sorted {c : Host.Cell} {m : Memory} (hm : m.Pairwise (fun c d => c.1 < d.1))
    (hc : ∀ d ∈ m, d.1 ≠ c.1) : (insertCell c m).Pairwise (fun c d => c.1 < d.1) := by
  induction m with
  | nil => simp [insertCell]
  | cons d rest ih =>
    have hd := List.pairwise_cons.mp hm
    by_cases hlt : c.1 < d.1
    · simp only [insertCell, hlt, if_true, List.pairwise_cons]
      exact ⟨fun e he => (List.mem_cons.mp he).elim (fun h => h ▸ hlt) (fun h => hlt.trans (hd.1 e h)), hd⟩
    · simp only [insertCell, hlt, if_false, List.pairwise_cons]
      refine ⟨fun e he => ?_, ih hd.2 (fun e he => hc e (List.mem_cons_of_mem _ he))⟩
      rcases mem_insertCell.mp he with rfl | he
      · have := hc d (by simp); omega
      · exact hd.1 e he

/-- `memWrite` keeps the canonical form. -/
theorem memWrite_wf {m : Memory} (a : Nat) (v : Byte) (h : m.wf) : (memWrite m a v).wf := by
  have hs : (m.filter (fun c => c.1 != a % memSize)).Pairwise (fun c d => c.1 < d.1) := h.1.sublist List.filter_sublist
  have hf : ∀ c ∈ m.filter (fun c => c.1 != a % memSize), c.1 < memSize ∧ c.2 ≠ resetByte c.1 :=
    fun c hc => h.2 c (List.mem_filter.mp hc).1
  unfold memWrite
  by_cases hv : v = resetByte (a % memSize)
  · simp only [hv, if_true]; exact ⟨hs, hf⟩
  · simp only [hv, if_false]
    refine ⟨insertCell_sorted hs (fun d hd => by simpa using (List.mem_filter.mp hd).2), fun c hc => ?_⟩
    rcases mem_insertCell.mp hc with rfl | hc
    · exact ⟨Nat.mod_lt _ (by simp), hv⟩
    · exact hf c hc

/-- A run of stores keeps the canonical form. -/
theorem storeBytes_wf {m : Memory} (a : Nat) (bs : List Byte) (h : m.wf) : (storeBytes m a bs).wf := by
  induction bs generalizing m a with
  | nil => exact h
  | cons b rest ih => exact ih _ (memWrite_wf a b h)

/-- Reset memory lists nothing and is canonical. -/
theorem reset_mem_wf : State.reset.mem.wf := by decide

/-- Reset memory reads as the reset contents (R41). -/
theorem memRead_reset (a : Nat) : memRead State.reset.mem a = resetByte (a % memSize) := rfl

end Sys2Proof.Machine
end

