-- ==== Sys2Proof/Laws/State.lean ====
section
/-! SUPPORT. What each field of the state is after each named update: one lemma per field per update, true by rfl, so
that no later proof unfolds a record update. What `V[y]` is after `V[x] <- b` stands in Laws/Ops.lean. -/

namespace Sys2Proof.Machine

variable (s : State)

@[simp] theorem setMem_mem (a : Memory) : (s.setMem a).mem = a := rfl
@[simp] theorem setMem_v (a : Memory) : (s.setMem a).v = s.v := rfl
@[simp] theorem setMem_i (a : Memory) : (s.setMem a).i = s.i := rfl
@[simp] theorem setMem_pc (a : Memory) : (s.setMem a).pc = s.pc := rfl
@[simp] theorem setMem_stack (a : Memory) : (s.setMem a).stack = s.stack := rfl
@[simp] theorem setMem_dt (a : Memory) : (s.setMem a).dt = s.dt := rfl
@[simp] theorem setMem_st (a : Memory) : (s.setMem a).st = s.st := rfl
@[simp] theorem setMem_keys (a : Memory) : (s.setMem a).keys = s.keys := rfl
@[simp] theorem setMem_disp (a : Memory) : (s.setMem a).disp = s.disp := rfl
@[simp] theorem setMem_halted (a : Memory) : (s.setMem a).halted = s.halted := rfl
@[simp] theorem setMem_draws (a : Memory) : (s.setMem a).draws = s.draws := rfl
@[simp] theorem setMem_getV (a : Memory) (x : RegNum) : (s.setMem a).getV x = s.getV x := rfl

@[simp] theorem setI_mem (a : Addr) : (s.setI a).mem = s.mem := rfl
@[simp] theorem setI_v (a : Addr) : (s.setI a).v = s.v := rfl
@[simp] theorem setI_i (a : Addr) : (s.setI a).i = a := rfl
@[simp] theorem setI_pc (a : Addr) : (s.setI a).pc = s.pc := rfl
@[simp] theorem setI_stack (a : Addr) : (s.setI a).stack = s.stack := rfl
@[simp] theorem setI_dt (a : Addr) : (s.setI a).dt = s.dt := rfl
@[simp] theorem setI_st (a : Addr) : (s.setI a).st = s.st := rfl
@[simp] theorem setI_keys (a : Addr) : (s.setI a).keys = s.keys := rfl
@[simp] theorem setI_disp (a : Addr) : (s.setI a).disp = s.disp := rfl
@[simp] theorem setI_halted (a : Addr) : (s.setI a).halted = s.halted := rfl
@[simp] theorem setI_draws (a : Addr) : (s.setI a).draws = s.draws := rfl
@[simp] theorem setI_getV (a : Addr) (x : RegNum) : (s.setI a).getV x = s.getV x := rfl

@[simp] theorem setPc_mem (a : Addr) : (s.setPc a).mem = s.mem := rfl
@[simp] theorem setPc_v (a : Addr) : (s.setPc a).v = s.v := rfl
@[simp] theorem setPc_i (a : Addr) : (s.setPc a).i = s.i := rfl
@[simp] theorem setPc_pc (a : Addr) : (s.setPc a).pc = a := rfl
@[simp] theorem setPc_stack (a : Addr) : (s.setPc a).stack = s.stack := rfl
@[simp] theorem setPc_dt (a : Addr) : (s.setPc a).dt = s.dt := rfl
@[simp] theorem setPc_st (a : Addr) : (s.setPc a).st = s.st := rfl
@[simp] theorem setPc_keys (a : Addr) : (s.setPc a).keys = s.keys := rfl
@[simp] theorem setPc_disp (a : Addr) : (s.setPc a).disp = s.disp := rfl
@[simp] theorem setPc_halted (a : Addr) : (s.setPc a).halted = s.halted := rfl
@[simp] theorem setPc_draws (a : Addr) : (s.setPc a).draws = s.draws := rfl
@[simp] theorem setPc_getV (a : Addr) (x : RegNum) : (s.setPc a).getV x = s.getV x := rfl

@[simp] theorem setStack_mem (a : List Addr) : (s.setStack a).mem = s.mem := rfl
@[simp] theorem setStack_v (a : List Addr) : (s.setStack a).v = s.v := rfl
@[simp] theorem setStack_i (a : List Addr) : (s.setStack a).i = s.i := rfl
@[simp] theorem setStack_pc (a : List Addr) : (s.setStack a).pc = s.pc := rfl
@[simp] theorem setStack_stack (a : List Addr) : (s.setStack a).stack = a := rfl
@[simp] theorem setStack_dt (a : List Addr) : (s.setStack a).dt = s.dt := rfl
@[simp] theorem setStack_st (a : List Addr) : (s.setStack a).st = s.st := rfl
@[simp] theorem setStack_keys (a : List Addr) : (s.setStack a).keys = s.keys := rfl
@[simp] theorem setStack_disp (a : List Addr) : (s.setStack a).disp = s.disp := rfl
@[simp] theorem setStack_halted (a : List Addr) : (s.setStack a).halted = s.halted := rfl
@[simp] theorem setStack_draws (a : List Addr) : (s.setStack a).draws = s.draws := rfl
@[simp] theorem setStack_getV (a : List Addr) (x : RegNum) : (s.setStack a).getV x = s.getV x := rfl

@[simp] theorem setDt_mem (a : Byte) : (s.setDt a).mem = s.mem := rfl
@[simp] theorem setDt_v (a : Byte) : (s.setDt a).v = s.v := rfl
@[simp] theorem setDt_i (a : Byte) : (s.setDt a).i = s.i := rfl
@[simp] theorem setDt_pc (a : Byte) : (s.setDt a).pc = s.pc := rfl
@[simp] theorem setDt_stack (a : Byte) : (s.setDt a).stack = s.stack := rfl
@[simp] theorem setDt_dt (a : Byte) : (s.setDt a).dt = a := rfl
@[simp] theorem setDt_st (a : Byte) : (s.setDt a).st = s.st := rfl
@[simp] theorem setDt_keys (a : Byte) : (s.setDt a).keys = s.keys := rfl
@[simp] theorem setDt_disp (a : Byte) : (s.setDt a).disp = s.disp := rfl
@[simp] theorem setDt_halted (a : Byte) : (s.setDt a).halted = s.halted := rfl
@[simp] theorem setDt_draws (a : Byte) : (s.setDt a).draws = s.draws := rfl
@[simp] theorem setDt_getV (a : Byte) (x : RegNum) : (s.setDt a).getV x = s.getV x := rfl

@[simp] theorem setSt_mem (a : Byte) : (s.setSt a).mem = s.mem := rfl
@[simp] theorem setSt_v (a : Byte) : (s.setSt a).v = s.v := rfl
@[simp] theorem setSt_i (a : Byte) : (s.setSt a).i = s.i := rfl
@[simp] theorem setSt_pc (a : Byte) : (s.setSt a).pc = s.pc := rfl
@[simp] theorem setSt_stack (a : Byte) : (s.setSt a).stack = s.stack := rfl
@[simp] theorem setSt_dt (a : Byte) : (s.setSt a).dt = s.dt := rfl
@[simp] theorem setSt_st (a : Byte) : (s.setSt a).st = a := rfl
@[simp] theorem setSt_keys (a : Byte) : (s.setSt a).keys = s.keys := rfl
@[simp] theorem setSt_disp (a : Byte) : (s.setSt a).disp = s.disp := rfl
@[simp] theorem setSt_halted (a : Byte) : (s.setSt a).halted = s.halted := rfl
@[simp] theorem setSt_draws (a : Byte) : (s.setSt a).draws = s.draws := rfl
@[simp] theorem setSt_getV (a : Byte) (x : RegNum) : (s.setSt a).getV x = s.getV x := rfl

@[simp] theorem setKeys_mem (a : Word) : (s.setKeys a).mem = s.mem := rfl
@[simp] theorem setKeys_v (a : Word) : (s.setKeys a).v = s.v := rfl
@[simp] theorem setKeys_i (a : Word) : (s.setKeys a).i = s.i := rfl
@[simp] theorem setKeys_pc (a : Word) : (s.setKeys a).pc = s.pc := rfl
@[simp] theorem setKeys_stack (a : Word) : (s.setKeys a).stack = s.stack := rfl
@[simp] theorem setKeys_dt (a : Word) : (s.setKeys a).dt = s.dt := rfl
@[simp] theorem setKeys_st (a : Word) : (s.setKeys a).st = s.st := rfl
@[simp] theorem setKeys_keys (a : Word) : (s.setKeys a).keys = a := rfl
@[simp] theorem setKeys_disp (a : Word) : (s.setKeys a).disp = s.disp := rfl
@[simp] theorem setKeys_halted (a : Word) : (s.setKeys a).halted = s.halted := rfl
@[simp] theorem setKeys_draws (a : Word) : (s.setKeys a).draws = s.draws := rfl
@[simp] theorem setKeys_getV (a : Word) (x : RegNum) : (s.setKeys a).getV x = s.getV x := rfl

@[simp] theorem setDisp_mem (a : Display) : (s.setDisp a).mem = s.mem := rfl
@[simp] theorem setDisp_v (a : Display) : (s.setDisp a).v = s.v := rfl
@[simp] theorem setDisp_i (a : Display) : (s.setDisp a).i = s.i := rfl
@[simp] theorem setDisp_pc (a : Display) : (s.setDisp a).pc = s.pc := rfl
@[simp] theorem setDisp_stack (a : Display) : (s.setDisp a).stack = s.stack := rfl
@[simp] theorem setDisp_dt (a : Display) : (s.setDisp a).dt = s.dt := rfl
@[simp] theorem setDisp_st (a : Display) : (s.setDisp a).st = s.st := rfl
@[simp] theorem setDisp_keys (a : Display) : (s.setDisp a).keys = s.keys := rfl
@[simp] theorem setDisp_disp (a : Display) : (s.setDisp a).disp = a := rfl
@[simp] theorem setDisp_halted (a : Display) : (s.setDisp a).halted = s.halted := rfl
@[simp] theorem setDisp_draws (a : Display) : (s.setDisp a).draws = s.draws := rfl
@[simp] theorem setDisp_getV (a : Display) (x : RegNum) : (s.setDisp a).getV x = s.getV x := rfl

@[simp] theorem setHalted_mem (a : Halted) : (s.setHalted a).mem = s.mem := rfl
@[simp] theorem setHalted_v (a : Halted) : (s.setHalted a).v = s.v := rfl
@[simp] theorem setHalted_i (a : Halted) : (s.setHalted a).i = s.i := rfl
@[simp] theorem setHalted_pc (a : Halted) : (s.setHalted a).pc = s.pc := rfl
@[simp] theorem setHalted_stack (a : Halted) : (s.setHalted a).stack = s.stack := rfl
@[simp] theorem setHalted_dt (a : Halted) : (s.setHalted a).dt = s.dt := rfl
@[simp] theorem setHalted_st (a : Halted) : (s.setHalted a).st = s.st := rfl
@[simp] theorem setHalted_keys (a : Halted) : (s.setHalted a).keys = s.keys := rfl
@[simp] theorem setHalted_disp (a : Halted) : (s.setHalted a).disp = s.disp := rfl
@[simp] theorem setHalted_halted (a : Halted) : (s.setHalted a).halted = a := rfl
@[simp] theorem setHalted_draws (a : Halted) : (s.setHalted a).draws = s.draws := rfl
@[simp] theorem setHalted_getV (a : Halted) (x : RegNum) : (s.setHalted a).getV x = s.getV x := rfl

@[simp] theorem setDraws_mem (a : Nat) : (s.setDraws a).mem = s.mem := rfl
@[simp] theorem setDraws_v (a : Nat) : (s.setDraws a).v = s.v := rfl
@[simp] theorem setDraws_i (a : Nat) : (s.setDraws a).i = s.i := rfl
@[simp] theorem setDraws_pc (a : Nat) : (s.setDraws a).pc = s.pc := rfl
@[simp] theorem setDraws_stack (a : Nat) : (s.setDraws a).stack = s.stack := rfl
@[simp] theorem setDraws_dt (a : Nat) : (s.setDraws a).dt = s.dt := rfl
@[simp] theorem setDraws_st (a : Nat) : (s.setDraws a).st = s.st := rfl
@[simp] theorem setDraws_keys (a : Nat) : (s.setDraws a).keys = s.keys := rfl
@[simp] theorem setDraws_disp (a : Nat) : (s.setDraws a).disp = s.disp := rfl
@[simp] theorem setDraws_halted (a : Nat) : (s.setDraws a).halted = s.halted := rfl
@[simp] theorem setDraws_draws (a : Nat) : (s.setDraws a).draws = a := rfl
@[simp] theorem setDraws_getV (a : Nat) (x : RegNum) : (s.setDraws a).getV x = s.getV x := rfl

@[simp] theorem setV_mem (x : RegNum) (b : Byte) : (s.setV x b).mem = s.mem := rfl
@[simp] theorem setV_i (x : RegNum) (b : Byte) : (s.setV x b).i = s.i := rfl
@[simp] theorem setV_pc (x : RegNum) (b : Byte) : (s.setV x b).pc = s.pc := rfl
@[simp] theorem setV_stack (x : RegNum) (b : Byte) : (s.setV x b).stack = s.stack := rfl
@[simp] theorem setV_dt (x : RegNum) (b : Byte) : (s.setV x b).dt = s.dt := rfl
@[simp] theorem setV_st (x : RegNum) (b : Byte) : (s.setV x b).st = s.st := rfl
@[simp] theorem setV_keys (x : RegNum) (b : Byte) : (s.setV x b).keys = s.keys := rfl
@[simp] theorem setV_disp (x : RegNum) (b : Byte) : (s.setV x b).disp = s.disp := rfl
@[simp] theorem setV_halted (x : RegNum) (b : Byte) : (s.setV x b).halted = s.halted := rfl
@[simp] theorem setV_draws (x : RegNum) (b : Byte) : (s.setV x b).draws = s.draws := rfl

@[simp] theorem advance_mem : (s.advance).mem = s.mem := rfl
@[simp] theorem advance_v : (s.advance).v = s.v := rfl
@[simp] theorem advance_i : (s.advance).i = s.i := rfl
@[simp] theorem advance_stack : (s.advance).stack = s.stack := rfl
@[simp] theorem advance_dt : (s.advance).dt = s.dt := rfl
@[simp] theorem advance_st : (s.advance).st = s.st := rfl
@[simp] theorem advance_keys : (s.advance).keys = s.keys := rfl
@[simp] theorem advance_disp : (s.advance).disp = s.disp := rfl
@[simp] theorem advance_halted : (s.advance).halted = s.halted := rfl
@[simp] theorem advance_draws : (s.advance).draws = s.draws := rfl
@[simp] theorem advance_getV (x : RegNum) : (s.advance).getV x = s.getV x := rfl

@[simp] theorem skip_mem : (s.skip).mem = s.mem := rfl
@[simp] theorem skip_v : (s.skip).v = s.v := rfl
@[simp] theorem skip_i : (s.skip).i = s.i := rfl
@[simp] theorem skip_stack : (s.skip).stack = s.stack := rfl
@[simp] theorem skip_dt : (s.skip).dt = s.dt := rfl
@[simp] theorem skip_st : (s.skip).st = s.st := rfl
@[simp] theorem skip_keys : (s.skip).keys = s.keys := rfl
@[simp] theorem skip_disp : (s.skip).disp = s.disp := rfl
@[simp] theorem skip_halted : (s.skip).halted = s.halted := rfl
@[simp] theorem skip_draws : (s.skip).draws = s.draws := rfl
@[simp] theorem skip_getV (x : RegNum) : (s.skip).getV x = s.getV x := rfl

@[simp] theorem drawn_mem : (s.drawn).mem = s.mem := rfl
@[simp] theorem drawn_v : (s.drawn).v = s.v := rfl
@[simp] theorem drawn_i : (s.drawn).i = s.i := rfl
@[simp] theorem drawn_pc : (s.drawn).pc = s.pc := rfl
@[simp] theorem drawn_stack : (s.drawn).stack = s.stack := rfl
@[simp] theorem drawn_dt : (s.drawn).dt = s.dt := rfl
@[simp] theorem drawn_st : (s.drawn).st = s.st := rfl
@[simp] theorem drawn_keys : (s.drawn).keys = s.keys := rfl
@[simp] theorem drawn_disp : (s.drawn).disp = s.disp := rfl
@[simp] theorem drawn_halted : (s.drawn).halted = s.halted := rfl
@[simp] theorem drawn_getV (x : RegNum) : (s.drawn).getV x = s.getV x := rfl

@[simp] theorem setFlag_mem (f : Byte) : (s.setFlag f).mem = s.mem := rfl
@[simp] theorem setFlag_i (f : Byte) : (s.setFlag f).i = s.i := rfl
@[simp] theorem setFlag_pc (f : Byte) : (s.setFlag f).pc = s.pc := rfl
@[simp] theorem setFlag_stack (f : Byte) : (s.setFlag f).stack = s.stack := rfl
@[simp] theorem setFlag_dt (f : Byte) : (s.setFlag f).dt = s.dt := rfl
@[simp] theorem setFlag_st (f : Byte) : (s.setFlag f).st = s.st := rfl
@[simp] theorem setFlag_keys (f : Byte) : (s.setFlag f).keys = s.keys := rfl
@[simp] theorem setFlag_disp (f : Byte) : (s.setFlag f).disp = s.disp := rfl
@[simp] theorem setFlag_halted (f : Byte) : (s.setFlag f).halted = s.halted := rfl
@[simp] theorem setFlag_draws (f : Byte) : (s.setFlag f).draws = s.draws := rfl

@[simp] theorem advance_pc : s.advance.pc = s.pc + 2#12 := rfl
@[simp] theorem skip_pc : s.skip.pc = s.pc + 4#12 := rfl
@[simp] theorem drawn_draws : s.drawn.draws = s.draws + 1 := rfl

@[simp] theorem skipIf_mem (c : Bool) : (s.skipIf c).mem = s.mem := by cases c <;> rfl
@[simp] theorem skipIf_v (c : Bool) : (s.skipIf c).v = s.v := by cases c <;> rfl
@[simp] theorem skipIf_i (c : Bool) : (s.skipIf c).i = s.i := by cases c <;> rfl
@[simp] theorem skipIf_stack (c : Bool) : (s.skipIf c).stack = s.stack := by cases c <;> rfl
@[simp] theorem skipIf_dt (c : Bool) : (s.skipIf c).dt = s.dt := by cases c <;> rfl
@[simp] theorem skipIf_st (c : Bool) : (s.skipIf c).st = s.st := by cases c <;> rfl
@[simp] theorem skipIf_keys (c : Bool) : (s.skipIf c).keys = s.keys := by cases c <;> rfl
@[simp] theorem skipIf_disp (c : Bool) : (s.skipIf c).disp = s.disp := by cases c <;> rfl
@[simp] theorem skipIf_halted (c : Bool) : (s.skipIf c).halted = s.halted := by cases c <;> rfl
@[simp] theorem skipIf_draws (c : Bool) : (s.skipIf c).draws = s.draws := by cases c <;> rfl
@[simp] theorem skipIf_getV (c : Bool) (x : RegNum) : (s.skipIf c).getV x = s.getV x := by cases c <;> rfl
theorem skipIf_pc (c : Bool) : (s.skipIf c).pc = if c then s.pc + 4#12 else s.pc + 2#12 := by cases c <;> rfl

end Sys2Proof.Machine
end

