-- ==== Sys2Proof/Laws/Ops.lean ====
section
/-! SUPPORT. For each shared operation, what it can do, said once: registers, the display's cells, the program counter's
moves, the call stack and its faults, the runs of registers, the step and the step transaction. -/

namespace Sys2Proof.Machine

/-! ## General registers -/

/-- A read after a write: the byte written, or what the other register held (R21). -/
theorem getV_setV (s : State) (x y : RegNum) (b : Byte) :
    (s.setV x b).getV y = if y = x then b else s.getV y := by
  unfold State.getV State.setV
  by_cases h : y = x
  · subst h; simp
  · have hne : x.toNat ≠ y.toNat := fun e => h (BitVec.eq_of_toNat_eq e.symm)
    simp [h, Vector.getElem_set_ne _ _ hne]

@[simp] theorem getV_setV_self (s : State) (x : RegNum) (b : Byte) : (s.setV x b).getV x = b := by
  simp [getV_setV]

theorem getV_setV_ne (s : State) {x y : RegNum} (b : Byte) (h : y ≠ x) : (s.setV x b).getV y = s.getV y := by
  simp [getV_setV, h]

theorem getV_setFlag (s : State) (y : RegNum) (f : Byte) :
    (s.setFlag f).getV y = if y = vf then f else s.getV y := getV_setV s vf y f

@[simp] theorem getV_reset (x : RegNum) : State.reset.getV x = 0#8 := by simp [State.reset, State.getV]

/-- Two register files that agree in every register are one. -/
theorem v_ext {s t : State} (h : ∀ x, s.getV x = t.getV x) : s.v = t.v := by
  apply Vector.ext
  intro k hk
  have := h (BitVec.ofNat 4 k)
  simpa [State.getV, Nat.mod_eq_of_lt hk] using this

/-! ## The display -/

/-- A cell after a cell was written: the value written when it is the same cell of the buffer, else as before (R35). -/
theorem cellAt_setCell (d : Display) (x y px py : Nat) (b : Bool) (hx : x < dispW) (hy : y < dispH) :
    cellAt (setCell d x y b) px py = if px = x ∧ py = y then b else cellAt d px py := by
  unfold cellAt setCell
  simp only [hy, dite_true]
  by_cases h1 : py = y
  · subst h1
    by_cases h2 : px = x
    · subst h2
      simp [hy, hx]
    · have h3 : x ≠ px := fun e => h2 e.symm
      simp [hy, h2, h3]
  · have h3 : y ≠ py := fun e => h1 e.symm
    simp [h1, h3]

/-- A clear display has no cell at 1 (R180). -/
theorem cellAt_clearDisplay (x y : Nat) : cellAt clearDisplay x y = false := by
  unfold cellAt clearDisplay
  by_cases hy : y < dispH
  · by_cases hx : x < dispW <;> simp [hx, hy]
  · simp [hy]

/-- Two displays that agree in every cell of the buffer are one. -/
theorem display_ext {d e : Display} (h : ∀ x < dispW, ∀ y < dispH, cellAt d x y = cellAt e x y) : d = e := by
  apply Vector.ext
  intro y hy
  apply Vector.ext
  intro x hx
  simpa [cellAt, hx, hy] using h x hx y hy

/-! ## The call stack and its faults -/

/-- Everything a call can do (R104, R225). -/
theorem callSubroutine_cases (cap : Option Nat) (target : Addr) (s : State) :
    (stackFull cap s.stack = true ∧
      callSubroutine cap target s = .next (s.setHalted (.faulted (.stackOverflow s.pc)))) ∨
    (stackFull cap s.stack = false ∧
      callSubroutine cap target s = .next ((s.setStack (s.pc :: s.stack)).setPc target)) := by
  unfold callSubroutine raise
  cases stackFull cap s.stack <;> simp

/-- Everything a return can do (R102, R221). -/
theorem returnSubroutine_cases (s : State) :
    (s.stack = [] ∧ returnSubroutine s = .next (s.setHalted (.faulted (.stackUnderflow s.pc)))) ∨
    (∃ a rest, s.stack = a :: rest ∧ returnSubroutine s = .next ((s.setStack rest).setPc (a + 2#12))) := by
  unfold returnSubroutine raise
  cases h : s.stack with
  | nil => exact .inl ⟨rfl, rfl⟩
  | cons a rest => exact .inr ⟨a, rest, rfl, rfl⟩

/-- With the configured capacity the stack is never full (R31, D10). -/
theorem execCall_eq (nnn : Addr) (s : State) :
    execCall nnn s = .next ((s.setStack (s.pc :: s.stack)).setPc nnn) := rfl

/-! ## Runs of registers -/

theorem mem_regsUpTo {x r : RegNum} : r ∈ regsUpTo x ↔ r.toNat ≤ x.toNat := by
  have hx := x.isLt
  have hr := r.isLt
  simp only [regsUpTo, List.mem_map, List.mem_range]
  constructor
  · rintro ⟨k, hk, rfl⟩
    simp only [BitVec.toNat_ofNat]
    omega
  · intro h
    exact ⟨r.toNat, by omega, by simp⟩

theorem regsUpTo_length (x : RegNum) : (regsUpTo x).length = x.toNat + 1 := by simp [regsUpTo]

/-- Entry `k` of the run is register `k`. -/
theorem regsUpTo_getElem (x : RegNum) (k : Nat) (h : k < (regsUpTo x).length) :
    (regsUpTo x)[k] = BitVec.ofNat 4 k := by simp [regsUpTo]

/-- Loading a list of registers from memory writes those registers and nothing else (R166). -/
theorem loadFold (rs : List RegNum) (s : State) :
    let t := rs.foldl (fun t k => t.setV k (memRead t.mem (effAddr t k.toNat))) s
    (∀ r, t.getV r = if r ∈ rs then memRead s.mem (effAddr s r.toNat) else s.getV r) ∧
    t = { s with v := t.v } := by
  induction rs generalizing s with
  | nil => simp
  | cons k rest ih =>
    obtain ⟨h1, h2⟩ := ih (s.setV k (memRead s.mem (effAddr s k.toNat)))
    refine ⟨fun r => ?_, ?_⟩
    · rw [List.foldl_cons, h1 r]
      by_cases hr : r ∈ rest
      · simp [hr, effAddr]
      · by_cases hk : r = k
        · subst hk; simp [hr]
        · simp [hr, hk, getV_setV_ne]
    · rw [List.foldl_cons]
      rw [h2]
      rfl

/-! ## Keys -/

/-- While some key is held, the lowest key is held and none below it is (R203). -/
theorem lowestKey_spec {keys : Word} (h : keys ≠ 0#16) :
    lowestKey keys < 16 ∧ keyHeld keys (lowestKey keys) = true ∧ ∀ k < lowestKey keys, keyHeld keys k = false := by
  unfold lowestKey
  cases hf : (List.range 16).find? (keyHeld keys) with
  | none =>
    refine absurd ?_ h
    apply BitVec.eq_of_getLsbD_eq
    intro k hk
    have := List.find?_eq_none.mp hf k (by simpa using hk)
    simpa [keyHeld] using this
  | some k =>
    have hk := List.find?_some hf
    have hlt : k < 16 := by simpa using List.mem_of_find?_eq_some hf
    refine ⟨hlt, hk, fun j hj => ?_⟩
    have := (List.find?_range_eq_some.mp hf).2.2 j hj
    simpa using this

/-! ## Reset with any font -/

theorem fontBytes_length (font : Config.FontTable) : (Config.fontBytes font).length = 80 :=
  List.length_ofFn

/-- What memory holds after a reset (R41, R42): the core's font at 0 to 79, 0 in every other byte. -/
theorem memRead_resetCore (font : Config.FontTable) (s : State) (a : Nat) :
    memRead (resetCore font s).mem a = if h : a % memSize < 80 then Config.fontByte font (a % memSize) h else 0#8 := by
  have hl := fontBytes_length font
  have hm : (resetCore font s).mem = storeBytes State.reset.mem 0 (Config.fontBytes font) := rfl
  have ho : (a + memSize - 0 % memSize) % memSize = a % memSize := by simp
  rw [hm, memRead_storeBytes _ _ _ _ (by simp [hl, memSize]), ho]
  by_cases h : a % memSize < 80
  · have hg : (Config.fontBytes font)[a % memSize]? = some (Config.fontByte font (a % memSize) h) := by
      rw [Config.fontBytes, List.getElem?_ofFn, dif_pos h]
    rw [hg, dif_pos h]; rfl
  · rw [List.getElem?_eq_none (by rw [hl]; omega), dif_neg h, Option.getD_none, memRead_reset]
    simp [resetByte, h]

/-- Every other element is that of `State.reset`; the count of draws goes on (log entry 5). -/
theorem resetCore_eq (font : Config.FontTable) (s : State) :
    resetCore font s = (State.reset.setMem (resetCore font s).mem).setDraws s.draws := rfl

/-- With the default font the reset transaction leaves `State.reset`, the count of draws apart. -/
theorem resetCore_default (s : State) : resetCore Config.defaultFont s = State.reset.setDraws s.draws := by
  have h : storeBytes State.reset.mem 0 (Config.fontBytes Config.defaultFont) = State.reset.mem := by decide
  simp only [resetCore, h]; rfl

/-- A reset leaves canonical memory. -/
theorem resetCore_wf (font : Config.FontTable) (s : State) : (resetCore font s).mem.wf := storeBytes_wf _ _ reset_mem_wf

/-! ## The step -/

/-- Everything a step can do (R80, R222). -/
theorem step_cases (s : State) :
    (s.halted = .running ∧ step s = exec (fetchInstr s) s) ∨ (∃ f, s.halted = .faulted f ∧ step s = .fault f) := by
  unfold step State.recordedFault
  cases h : s.halted with
  | running => exact .inl ⟨rfl, rfl⟩
  | faulted f => exact .inr ⟨f, rfl, rfl⟩

end Sys2Proof.Machine
end

