-- ==== Sys2Proof/Laws/Frame.lean ====
section
/-! SUPPORT. The small lemmas of the terms claims use (Safety.lean): the moves of the program counter, and how frames
compose and follow from each operation. -/

namespace Sys2Proof.Machine

/-! ## The program counter -/

theorem pcMoved_advance {s t : State} (h : t.pc = s.pc) : PcMoved 2 s t.advance := by
  simp [PcMoved, h, BitVec.toNat_add]

theorem pcMoved_skip {s t : State} (h : t.pc = s.pc) : PcMoved 4 s t.skip := by
  simp [PcMoved, h, BitVec.toNat_add]

/-- A skip moves the program counter by 4 when its condition holds, else by 2 (R106). -/
theorem pcMoved_skipIf (s : State) (c : Bool) :
    if c then PcMoved 4 s (s.skipIf c) else PcMoved 2 s (s.skipIf c) := by
  cases c
  · exact pcMoved_advance rfl
  · exact pcMoved_skip rfl

/-! ## Frames -/

theorem Keeps.refl (ws : List Part) (s : State) : Keeps ws s s := by constructor <;> intros <;> rfl

theorem Keeps.trans {ws : List Part} {s t u : State} (h : Keeps ws s t) (k : Keeps ws t u) : Keeps ws s u where
  reg r e := (k.reg r e).trans (h.reg r e)
  i e := (k.i e).trans (h.i e)
  stack e := (k.stack e).trans (h.stack e)
  dt e := (k.dt e).trans (h.dt e)
  st e := (k.st e).trans (h.st e)
  keys e := (k.keys e).trans (h.keys e)
  disp e := (k.disp e).trans (h.disp e)
  halted e := (k.halted e).trans (h.halted e)
  draws e := (k.draws e).trans (h.draws e)
  byte a e := (k.byte a e).trans (h.byte a e)

/-- A frame that lists more parts says less. -/
theorem Keeps.mono {ws vs : List Part} {s t : State} (h : Keeps ws s t) (k : ∀ p ∈ ws, p ∈ vs) : Keeps vs s t where
  reg r e := h.reg r (fun m => e (k _ m))
  i e := h.i (fun m => e (k _ m))
  stack e := h.stack (fun m => e (k _ m))
  dt e := h.dt (fun m => e (k _ m))
  st e := h.st (fun m => e (k _ m))
  keys e := h.keys (fun m => e (k _ m))
  disp e := h.disp (fun m => e (k _ m))
  halted e := h.halted (fun m => e (k _ m))
  draws e := h.draws (fun m => e (k _ m))
  byte a e := h.byte a (fun m => e (k _ m))

/-- Where the program counter goes is outside every frame. -/
theorem Keeps.setPc {ws : List Part} {s t : State} (h : Keeps ws s t) (a : Addr) : Keeps ws s (t.setPc a) :=
  ⟨h.reg, h.i, h.stack, h.dt, h.st, h.keys, h.disp, h.halted, h.draws, h.byte⟩

theorem Keeps.advance {ws : List Part} {s t : State} (h : Keeps ws s t) : Keeps ws s t.advance := h.setPc _

theorem Keeps.skipIf {ws : List Part} {s t : State} (h : Keeps ws s t) (c : Bool) : Keeps ws s (t.skipIf c) := by
  cases c
  · exact h.setPc _
  · exact h.setPc _

/-- Writing one register. -/
theorem keeps_setV (s : State) (x : RegNum) (b : Byte) : Keeps [.reg x] s (s.setV x b) := by
  constructor <;> simp +contextual [getV_setV]

/-- Writing the flag and then a result, which may be the flag register too (R22). -/
theorem keeps_setFlag_setV (s : State) (x : RegNum) (f b : Byte) :
    Keeps [.reg x, .reg vf] s ((s.setFlag f).setV x b) := by
  constructor <;> simp +contextual [getV_setV, getV_setFlag]

/-- Storing a run of bytes at `I`. -/
theorem keeps_storeBytes (s : State) (bs : List Byte) :
    Keeps (byteParts s bs.length) s (s.setMem (storeBytes s.mem (effAddr s 0) bs)) := by
  constructor <;> try simp
  intro a ha
  apply memRead_storeBytes_other
  intro k hk e
  apply ha
  refine List.mem_map.mpr ⟨k, by simpa using hk, ?_⟩
  simp only [effAddr, memSize] at *
  congr 1; omega

end Sys2Proof.Machine
end

