-- ==== Sys2Proof/Laws/Draw.lean ====
section
/-! SUPPORT. The drawing loop of DXYN, operation by operation: what one pixel does, and what a row, the rows and a whole
sprite leave unchanged, under every reading of R185. -/

namespace Sys2Proof.Machine

/-- One pixel of the sprite flips its cell and no other (R181). -/
theorem plot_cell (px py : Nat) (s : State) (hx : px < dispW) (hy : py < dispH) (a b : Nat) :
    cellAt (plot px py s).disp a b = (cellAt s.disp a b ^^ (a == px && b == py)) := by
  unfold plot
  by_cases h : a = px ∧ b = py
  · obtain ⟨rfl, rfl⟩ := h
    split_ifs with hc <;> simp [cellAt_setCell, hx, hy, hc]
  · have hne : (a == px && b == py) = false := by simpa using h
    rw [hne]
    split_ifs with hc <;> simp [cellAt_setCell, hx, hy, h]

/-- The flag becomes 1 when the cell was 1, else it stays (R181). -/
theorem plot_vf (px py : Nat) (s : State) :
    (plot px py s).getV vf = if cellAt s.disp px py then 1#8 else s.getV vf := by
  unfold plot; split_ifs <;> simp [getV_setFlag]

/-- One pixel changes the display and the flag, nothing else. -/
theorem plot_keeps (px py : Nat) (s : State) : Keeps [.disp, .reg vf] s (plot px py s) := by
  unfold plot
  split_ifs <;> constructor <;> simp +contextual [getV_setFlag]

/-- A property that every pixel keeps is kept by a row. -/
theorem drawRow_ind (P : State → Prop) (hP : ∀ px py s, P s → P (plot px py s)) (start : Option (Nat × Nat))
    (x y : RegNum) (r : Nat) (row : Byte) (cs : List Nat) (s : State) (h : P s) :
    P (drawRow start x y r row cs s) := by
  induction cs generalizing s with
  | nil => exact h
  | cons c rest ih =>
    simp only [drawRow]
    split_ifs
    · exact h
    · exact ih _ (hP _ _ _ h)
    · exact ih _ h

/-- A property that every pixel keeps is kept by the rows. -/
theorem drawRows_ind (P : State → Prop) (hP : ∀ px py s, P s → P (plot px py s)) (start : Option (Nat × Nat))
    (x y : RegNum) (rs : List Nat) (s : State) (h : P s) : P (drawRows start x y rs s) := by
  induction rs generalizing s with
  | nil => exact h
  | cons r rest ih => exact ih _ (drawRow_ind P hP _ _ _ _ _ _ _ h)

theorem drawRow_keeps (start : Option (Nat × Nat)) (x y : RegNum) (r : Nat) (row : Byte) (cs : List Nat) (s : State) :
    Keeps [.disp, .reg vf] s (drawRow start x y r row cs s) :=
  drawRow_ind _ (fun _ _ _ h => h.trans (plot_keeps _ _ _)) _ _ _ _ _ _ _ (Keeps.refl _ s)

theorem drawRows_keeps (start : Option (Nat × Nat)) (x y : RegNum) (rs : List Nat) (s : State) :
    Keeps [.disp, .reg vf] s (drawRows start x y rs s) :=
  drawRows_ind _ (fun _ _ _ h => h.trans (plot_keeps _ _ _)) _ _ _ _ _ (Keeps.refl _ s)

/-- A sprite changes the display and the flag, nothing else, under every reading of R185. -/
theorem drawSprite_keeps (m : DrawCoordRead) (x y n : BitVec 4) (s : State) :
    Keeps [.disp, .reg vf] s (drawSprite m x y n s) := by
  refine Keeps.trans ?_ (drawRows_keeps _ _ _ _ _)
  constructor <;> simp +contextual [getV_setFlag]

theorem plot_mem_pc (px py : Nat) (s : State) : (plot px py s).mem = s.mem ∧ (plot px py s).pc = s.pc := by
  unfold plot; split_ifs <;> exact ⟨rfl, rfl⟩

theorem drawRow_mem_pc (start : Option (Nat × Nat)) (x y : RegNum) (r : Nat) (row : Byte) (cs : List Nat) (s : State) :
    (drawRow start x y r row cs s).mem = s.mem ∧ (drawRow start x y r row cs s).pc = s.pc :=
  drawRow_ind (fun t => t.mem = s.mem ∧ t.pc = s.pc)
    (fun _ _ _ h => ⟨(plot_mem_pc _ _ _).1.trans h.1, (plot_mem_pc _ _ _).2.trans h.2⟩) _ _ _ _ _ _ _ ⟨rfl, rfl⟩

/-- A sprite leaves the listed memory and the program counter as they are; the advance follows it (R181). -/
theorem drawSprite_mem_pc (m : DrawCoordRead) (x y n : BitVec 4) (s : State) :
    (drawSprite m x y n s).mem = s.mem ∧ (drawSprite m x y n s).pc = s.pc :=
  drawRows_ind (fun t => t.mem = s.mem ∧ t.pc = s.pc)
    (fun _ _ _ h => ⟨(plot_mem_pc _ _ _).1.trans h.1, (plot_mem_pc _ _ _).2.trans h.2⟩) _ _ _ _ _ ⟨rfl, rfl⟩

end Sys2Proof.Machine
end

