-- ==== Sys2Proof/Laws/PerInstr.lean ====
section
/-! SUPPORT. Statements about every instruction as syntax, one lemma per constructor. The family `EncodeMatchesRow`: the
word the encoder writes for an instruction matches the opcode table's row of that instruction. -/

namespace Sys2Proof.Laws

/-- The word of `i` carries the match value of the row of the opcode table that names `i`, under that row's mask. -/
def EncodeMatchesRow.Statement (i : Instr) : Prop :=
  ∃ row ∈ opcodeTable, row.mnemonic = i.mnemonic ∧ encode i &&& row.mask = row.pattern

/-- A word whose four high bits are fixed. -/
theorem addr_mask (a : BitVec 4) (n : Addr) : (a ++ n : Word) &&& 0xF000#16 = a ++ 0#12 := by
  have h : ((a ++ n : BitVec (4 + 12)) &&& (0xF#4 ++ 0#12)) = a ++ 0#12 := by
    rw [BitVec.and_append]
    congr 1
    · exact BitVec.and_allOnes
    · exact BitVec.and_zero
  exact h

/-- A word whose four high bits and low byte are fixed. -/
theorem sub_mask (a x : BitVec 4) (n : Byte) : (a ++ x ++ n : Word) &&& 0xF0FF#16 = a ++ 0#4 ++ n := by
  have h : ((a ++ x ++ n : BitVec (4 + 4 + 8)) &&& (0xF#4 ++ 0#4 ++ 0xFF#8)) = a ++ 0#4 ++ n := by
    rw [BitVec.and_append, BitVec.and_append]
    congr 1
    · congr 1
      · exact BitVec.and_allOnes
      · exact BitVec.and_zero
    · exact BitVec.and_allOnes
  exact h

/-- The same, of the fields X and NN. -/
theorem imm_mask (a x : BitVec 4) (n : Byte) : (a ++ x ++ n : Word) &&& 0xF000#16 = a ++ 0#12 := by
  have h : ((a ++ x ++ n : BitVec (4 + 4 + 8)) &&& (0xF#4 ++ 0#4 ++ 0#8)) = a ++ 0#4 ++ 0#8 := by
    rw [BitVec.and_append, BitVec.and_append]
    congr 1
    · congr 1
      · exact BitVec.and_allOnes
      · exact BitVec.and_zero
    · exact BitVec.and_zero
  exact h.trans (by clear h; revert a; decide)

/-- A word whose four high and four low bits are fixed. -/
theorem reg_mask (a x y n : BitVec 4) : (a ++ x ++ y ++ n : Word) &&& 0xF00F#16 = a ++ 0#8 ++ n := by
  have h : ((a ++ x ++ y ++ n : BitVec (4 + 4 + 4 + 4)) &&& (0xF#4 ++ 0#4 ++ 0#4 ++ 0xF#4)) = a ++ 0#4 ++ 0#4 ++ n := by
    rw [BitVec.and_append, BitVec.and_append, BitVec.and_append]
    congr 1
    · congr 1
      · congr 1
        · exact BitVec.and_allOnes
        · exact BitVec.and_zero
      · exact BitVec.and_zero
    · exact BitVec.and_allOnes
  exact h.trans (by clear h; revert a n; decide)

/-- A word of four fields of which only the first is fixed. -/
theorem op_mask (a x y n : BitVec 4) : (a ++ x ++ y ++ n : Word) &&& 0xF000#16 = a ++ 0#12 := by
  have h : ((a ++ x ++ y ++ n : BitVec (4 + 4 + 4 + 4)) &&& (0xF#4 ++ 0#4 ++ 0#4 ++ 0#4)) = a ++ 0#4 ++ 0#4 ++ 0#4 := by
    rw [BitVec.and_append, BitVec.and_append, BitVec.and_append]
    congr 1
    · congr 1
      · congr 1
        · exact BitVec.and_allOnes
        · exact BitVec.and_zero
      · exact BitVec.and_zero
    · exact BitVec.and_zero
  exact h.trans (by clear h; revert a; decide)

theorem EncodeMatchesRow.cls : EncodeMatchesRow.Statement (.cls) :=
  ⟨⟨"00E0", 0xFFFF#16, 0x00E0#16⟩, by decide, rfl, rfl⟩

theorem EncodeMatchesRow.ret : EncodeMatchesRow.Statement (.ret) :=
  ⟨⟨"00EE", 0xFFFF#16, 0x00EE#16⟩, by decide, rfl, rfl⟩

theorem EncodeMatchesRow.sys (nnn : Addr) : EncodeMatchesRow.Statement (.sys nnn) :=
  ⟨⟨"0NNN", 0xF000#16, 0x0000#16⟩, by decide, rfl, addr_mask _ _⟩

theorem EncodeMatchesRow.jp (nnn : Addr) : EncodeMatchesRow.Statement (.jp nnn) :=
  ⟨⟨"1NNN", 0xF000#16, 0x1000#16⟩, by decide, rfl, addr_mask _ _⟩

theorem EncodeMatchesRow.call (nnn : Addr) : EncodeMatchesRow.Statement (.call nnn) :=
  ⟨⟨"2NNN", 0xF000#16, 0x2000#16⟩, by decide, rfl, addr_mask _ _⟩

theorem EncodeMatchesRow.seImm (x : RegNum) (nn : Byte) : EncodeMatchesRow.Statement (.seImm x nn) :=
  ⟨⟨"3XNN", 0xF000#16, 0x3000#16⟩, by decide, rfl, imm_mask _ _ _⟩

theorem EncodeMatchesRow.sneImm (x : RegNum) (nn : Byte) : EncodeMatchesRow.Statement (.sneImm x nn) :=
  ⟨⟨"4XNN", 0xF000#16, 0x4000#16⟩, by decide, rfl, imm_mask _ _ _⟩

theorem EncodeMatchesRow.seReg (x y : RegNum) : EncodeMatchesRow.Statement (.seReg x y) :=
  ⟨⟨"5XY0", 0xF000#16, 0x5000#16⟩, by decide, rfl, op_mask _ _ _ _⟩

theorem EncodeMatchesRow.ldImm (x : RegNum) (nn : Byte) : EncodeMatchesRow.Statement (.ldImm x nn) :=
  ⟨⟨"6XNN", 0xF000#16, 0x6000#16⟩, by decide, rfl, imm_mask _ _ _⟩

theorem EncodeMatchesRow.addImm (x : RegNum) (nn : Byte) : EncodeMatchesRow.Statement (.addImm x nn) :=
  ⟨⟨"7XNN", 0xF000#16, 0x7000#16⟩, by decide, rfl, imm_mask _ _ _⟩

theorem EncodeMatchesRow.ldReg (x y : RegNum) : EncodeMatchesRow.Statement (.ldReg x y) :=
  ⟨⟨"8XY0", 0xF00F#16, 0x8000#16⟩, by decide, rfl, reg_mask _ _ _ _⟩

theorem EncodeMatchesRow.orReg (x y : RegNum) : EncodeMatchesRow.Statement (.orReg x y) :=
  ⟨⟨"8XY1", 0xF00F#16, 0x8001#16⟩, by decide, rfl, reg_mask _ _ _ _⟩

theorem EncodeMatchesRow.andReg (x y : RegNum) : EncodeMatchesRow.Statement (.andReg x y) :=
  ⟨⟨"8XY2", 0xF00F#16, 0x8002#16⟩, by decide, rfl, reg_mask _ _ _ _⟩

theorem EncodeMatchesRow.xorReg (x y : RegNum) : EncodeMatchesRow.Statement (.xorReg x y) :=
  ⟨⟨"8XY3", 0xF00F#16, 0x8003#16⟩, by decide, rfl, reg_mask _ _ _ _⟩

theorem EncodeMatchesRow.addReg (x y : RegNum) : EncodeMatchesRow.Statement (.addReg x y) :=
  ⟨⟨"8XY4", 0xF00F#16, 0x8004#16⟩, by decide, rfl, reg_mask _ _ _ _⟩

theorem EncodeMatchesRow.subReg (x y : RegNum) : EncodeMatchesRow.Statement (.subReg x y) :=
  ⟨⟨"8XY5", 0xF00F#16, 0x8005#16⟩, by decide, rfl, reg_mask _ _ _ _⟩

theorem EncodeMatchesRow.shr (x y : RegNum) : EncodeMatchesRow.Statement (.shr x y) :=
  ⟨⟨"8XY6", 0xF00F#16, 0x8006#16⟩, by decide, rfl, reg_mask _ _ _ _⟩

theorem EncodeMatchesRow.subnReg (x y : RegNum) : EncodeMatchesRow.Statement (.subnReg x y) :=
  ⟨⟨"8XY7", 0xF00F#16, 0x8007#16⟩, by decide, rfl, reg_mask _ _ _ _⟩

theorem EncodeMatchesRow.shl (x y : RegNum) : EncodeMatchesRow.Statement (.shl x y) :=
  ⟨⟨"8XYE", 0xF00F#16, 0x800E#16⟩, by decide, rfl, reg_mask _ _ _ _⟩

theorem EncodeMatchesRow.sneReg (x y : RegNum) : EncodeMatchesRow.Statement (.sneReg x y) :=
  ⟨⟨"9XY0", 0xF000#16, 0x9000#16⟩, by decide, rfl, op_mask _ _ _ _⟩

theorem EncodeMatchesRow.ldI (nnn : Addr) : EncodeMatchesRow.Statement (.ldI nnn) :=
  ⟨⟨"ANNN", 0xF000#16, 0xA000#16⟩, by decide, rfl, addr_mask _ _⟩

theorem EncodeMatchesRow.jpV0 (nnn : Addr) : EncodeMatchesRow.Statement (.jpV0 nnn) :=
  ⟨⟨"BNNN", 0xF000#16, 0xB000#16⟩, by decide, rfl, addr_mask _ _⟩

theorem EncodeMatchesRow.rnd (x : RegNum) (nn : Byte) : EncodeMatchesRow.Statement (.rnd x nn) :=
  ⟨⟨"CXNN", 0xF000#16, 0xC000#16⟩, by decide, rfl, imm_mask _ _ _⟩

theorem EncodeMatchesRow.drw (x y n : BitVec 4) : EncodeMatchesRow.Statement (.drw x y n) :=
  ⟨⟨"DXYN", 0xF000#16, 0xD000#16⟩, by decide, rfl, op_mask _ _ _ _⟩

theorem EncodeMatchesRow.skp (x : RegNum) : EncodeMatchesRow.Statement (.skp x) :=
  ⟨⟨"EX9E", 0xF0FF#16, 0xE09E#16⟩, by decide, rfl, sub_mask _ _ _⟩

theorem EncodeMatchesRow.sknp (x : RegNum) : EncodeMatchesRow.Statement (.sknp x) :=
  ⟨⟨"EXA1", 0xF0FF#16, 0xE0A1#16⟩, by decide, rfl, sub_mask _ _ _⟩

theorem EncodeMatchesRow.ldFromDt (x : RegNum) : EncodeMatchesRow.Statement (.ldFromDt x) :=
  ⟨⟨"FX07", 0xF0FF#16, 0xF007#16⟩, by decide, rfl, sub_mask _ _ _⟩

theorem EncodeMatchesRow.ldKey (x : RegNum) : EncodeMatchesRow.Statement (.ldKey x) :=
  ⟨⟨"FX0A", 0xF0FF#16, 0xF00A#16⟩, by decide, rfl, sub_mask _ _ _⟩

theorem EncodeMatchesRow.ldDt (x : RegNum) : EncodeMatchesRow.Statement (.ldDt x) :=
  ⟨⟨"FX15", 0xF0FF#16, 0xF015#16⟩, by decide, rfl, sub_mask _ _ _⟩

theorem EncodeMatchesRow.ldSt (x : RegNum) : EncodeMatchesRow.Statement (.ldSt x) :=
  ⟨⟨"FX18", 0xF0FF#16, 0xF018#16⟩, by decide, rfl, sub_mask _ _ _⟩

theorem EncodeMatchesRow.addI (x : RegNum) : EncodeMatchesRow.Statement (.addI x) :=
  ⟨⟨"FX1E", 0xF0FF#16, 0xF01E#16⟩, by decide, rfl, sub_mask _ _ _⟩

theorem EncodeMatchesRow.ldFont (x : RegNum) : EncodeMatchesRow.Statement (.ldFont x) :=
  ⟨⟨"FX29", 0xF0FF#16, 0xF029#16⟩, by decide, rfl, sub_mask _ _ _⟩

theorem EncodeMatchesRow.ldBcd (x : RegNum) : EncodeMatchesRow.Statement (.ldBcd x) :=
  ⟨⟨"FX33", 0xF0FF#16, 0xF033#16⟩, by decide, rfl, sub_mask _ _ _⟩

theorem EncodeMatchesRow.storeRegs (x : RegNum) : EncodeMatchesRow.Statement (.storeRegs x) :=
  ⟨⟨"FX55", 0xF0FF#16, 0xF055#16⟩, by decide, rfl, sub_mask _ _ _⟩

theorem EncodeMatchesRow.loadRegs (x : RegNum) : EncodeMatchesRow.Statement (.loadRegs x) :=
  ⟨⟨"FX65", 0xF0FF#16, 0xF065#16⟩, by decide, rfl, sub_mask _ _ _⟩

theorem EncodeMatchesRow.noopFallback (raw : Word) : EncodeMatchesRow.Statement (.noopFallback raw) :=
  ⟨⟨"no-op_fallback", 0x0000#16, 0x0000#16⟩, by decide, rfl, BitVec.and_zero⟩

end Sys2Proof.Laws
end

