-- ==== Sys2Proof/Laws/Values.lean ====
section
/-! SUPPORT. What the flag computations, the operand forms and the host's masks and ticks are as numbers. -/

namespace Sys2Proof.Machine

/-- A flag is 1 or 0 (R37). -/
theorem flagByte_toNat (c : Bool) : (flagByte c).toNat = if c then 1 else 0 := by cases c <;> rfl

/-- The bit 8XY6 shifts out is the parity (R138). -/
theorem lowBitFlag_toNat (b : Byte) : (lowBitFlag b).toNat = b.toNat % 2 := by
  simp [lowBitFlag, Nat.and_one_is_mod]

/-- The bit 8XYE shifts out is 1 from 128 on (R140). -/
theorem highBitFlag_toNat (b : Byte) : (highBitFlag b).toNat = b.toNat / 128 := by
  have := b.isLt
  simp only [highBitFlag, BitVec.toNat_and, BitVec.toNat_ushiftRight, BitVec.toNat_ofNat, Nat.shiftRight_eq_div_pow]
  rw [show 1 % 2 ^ 8 = 1 from rfl, Nat.and_one_is_mod]
  omega

/-- The low nibble as a number (R163, R200). -/
theorem lowNibble_toNat (b : Byte) : (b &&& 0x0F#8).toNat = b.toNat % 16 := by
  rw [BitVec.toNat_and]; exact Nat.and_two_pow_sub_one_eq_mod b.toNat 4

/-- A widened byte keeps its value (R10). -/
theorem zextAddr_toNat (b : Byte) : (zextAddr b).toNat = b.toNat := by
  have := b.isLt
  simp only [zextAddr, BitVec.toNat_setWidth]
  omega

/-- A tick takes one from a timer and stops at zero (R244). -/
theorem tickTimer_toNat (b : Byte) : (tickTimer b).toNat = b.toNat - 1 := by
  unfold tickTimer
  split_ifs with h
  · simp [h]
  · have hb : b.toNat ≠ 0 := fun e => h (BitVec.eq_of_toNat_eq e)
    have := b.isLt
    simp [BitVec.toNat_sub]; omega

/-- The one-hot masks are the sixteen single bits (R242). -/
theorem oneHot_iff (m : Word) : oneHot m = true ↔ ∃ k < 16, m = 1#16 <<< k := by simp [oneHot]

/-- The one bit of the mask of key `k` (R242). -/
theorem keyMask_getLsbD (k j : Nat) (hk : k < 16) : (1#16 <<< k).getLsbD j = (j == k) := by
  by_cases hj : j < 16
  · revert hj; revert j; revert k; decide
  · have : j ≠ k := by omega
    simp [hj, this]

end Sys2Proof.Machine
end

