-- ==== Sys2Proof/Tests/Slice0.lean ====
section
/-! SUPPORT. The model's own tests. Expected values come from spec/: the vectors of 95_test_vectors.md are named by their
ids, the others by the rule they follow from. -/

namespace Sys2Proof.Tests

open Sys2Proof.Machine

/-! ## Helpers -/

/-- The launch state with some registers set. -/
def regs (l : List (RegNum × Byte)) : State := l.foldl (fun s p => s.setV p.1 p.2) State.reset

/-- A state with some bytes of memory set, from an address on. -/
def bytesAt (a : Nat) (l : List Byte) (s : State) : State := s.setMem (storeBytes s.mem a l)

/-- A view of the state after one step that runs a word placed at the program counter. -/
def got {α : Type} (w : Word) (s : State) (view : State → α) : Option α :=
  match step (placeWord s w) with
  | .next t => some (view t)
  | _ => none

/-- The values of some cells of the display. -/
def cells (l : List (Nat × Nat)) (s : State) : List Bool := l.map (fun p => cellAt s.disp p.1 p.2)

/-! ## Well-formedness: an ill-formed term for each check, which the check refuses (R75, R81) -/

theorem test_wf_refuses_sys_00E0 : (Instr.sys 0x0E0#12).wellFormed = false := by decide
theorem test_wf_refuses_sys_00EE : (Instr.sys 0x0EE#12).wellFormed = false := by decide
theorem test_wf_refuses_fallback_alu : (Instr.noopFallback 0x8014#16).wellFormed = false := by decide
theorem test_wf_refuses_fallback_key : (Instr.noopFallback 0xE0A1#16).wellFormed = false := by decide
theorem test_wf_refuses_fallback_misc : (Instr.noopFallback 0xF165#16).wellFormed = false := by decide
theorem test_wf_refuses_fallback_other : (Instr.noopFallback 0x1234#16).wellFormed = false := by decide
theorem test_wf_accepts : (Instr.sys 0x0E1#12).wellFormed = true ∧ (Instr.noopFallback 0xF0FF#16).wellFormed = true := by
  decide

/-! ## Decoding: a word written out for every constructor, from the formats of R71 and the match values of the table -/

theorem test_decode_op0 : decodeWord 0x00E0#16 = .cls ∧ decodeWord 0x00EE#16 = .ret ∧ decodeWord 0x0123#16 = .sys 0x123#12 ∧
    decodeWord 0x00FF#16 = .sys 0x0FF#12 ∧ decodeWord 0x01E0#16 = .sys 0x1E0#12 := by decide
theorem test_decode_jumps : decodeWord 0x1234#16 = .jp 0x234#12 ∧ decodeWord 0x2400#16 = .call 0x400#12 ∧
    decodeWord 0xBFFF#16 = .jpV0 0xFFF#12 := by decide
theorem test_decode_skips : decodeWord 0x3342#16 = .seImm 3#4 0x42#8 ∧ decodeWord 0x4342#16 = .sneImm 3#4 0x42#8 ∧
    decodeWord 0x5120#16 = .seReg 1#4 2#4 ∧ decodeWord 0x912F#16 = .sneReg 1#4 2#4 := by decide
theorem test_decode_imm : decodeWord 0x6F33#16 = .ldImm 15#4 0x33#8 ∧ decodeWord 0x71FE#16 = .addImm 1#4 0xFE#8 ∧
    decodeWord 0xC30F#16 = .rnd 3#4 0x0F#8 := by decide
theorem test_decode_logic : decodeWord 0x8120#16 = .ldReg 1#4 2#4 ∧ decodeWord 0x8121#16 = .orReg 1#4 2#4 ∧
    decodeWord 0x8122#16 = .andReg 1#4 2#4 ∧ decodeWord 0x8123#16 = .xorReg 1#4 2#4 := by decide
theorem test_decode_arith : decodeWord 0x8F14#16 = .addReg 15#4 1#4 ∧ decodeWord 0x8F15#16 = .subReg 15#4 1#4 ∧
    decodeWord 0x8126#16 = .shr 1#4 2#4 ∧ decodeWord 0x80F7#16 = .subnReg 0#4 15#4 ∧
    decodeWord 0x812E#16 = .shl 1#4 2#4 := by decide
theorem test_decode_index : decodeWord 0xAFFE#16 = .ldI 0xFFE#12 ∧ decodeWord 0xF21E#16 = .addI 2#4 ∧
    decodeWord 0xF329#16 = .ldFont 3#4 ∧ decodeWord 0xFC33#16 = .ldBcd 12#4 ∧ decodeWord 0xF255#16 = .storeRegs 2#4 ∧
    decodeWord 0xFF65#16 = .loadRegs 15#4 := by decide
theorem test_decode_display : decodeWord 0xD125#16 = .drw 1#4 2#4 5#4 := by decide
theorem test_decode_keys_timers : decodeWord 0xE19E#16 = .skp 1#4 ∧ decodeWord 0xE1A1#16 = .sknp 1#4 ∧
    decodeWord 0xF107#16 = .ldFromDt 1#4 ∧ decodeWord 0xF30A#16 = .ldKey 3#4 ∧ decodeWord 0xF015#16 = .ldDt 0#4 ∧
    decodeWord 0xF418#16 = .ldSt 4#4 := by decide
/-- D-DEC-4 to D-DEC-10. -/
theorem test_decode_fallback : decodeWord 0x8008#16 = .noopFallback 0x8008#16 ∧
    decodeWord 0x800F#16 = .noopFallback 0x800F#16 ∧ decodeWord 0xE000#16 = .noopFallback 0xE000#16 ∧
    decodeWord 0xE09F#16 = .noopFallback 0xE09F#16 ∧ decodeWord 0xF000#16 = .noopFallback 0xF000#16 ∧
    decodeWord 0xF0FF#16 = .noopFallback 0xF0FF#16 ∧ decodeWord 0xFFFF#16 = .noopFallback 0xFFFF#16 := by decide
theorem test_decode_truncated : decodeBytes [0x60#8] = .error .truncated ∧ decodeBytes [] = .error .truncated :=
  ⟨rfl, rfl⟩
/-- The bytes in memory order: the first is bits 15 to 8 (R54, L1-6). -/
theorem test_decode_bytes : decodeBytes [0x60#8, 0x0A#8, 0xFF#8] = .ok (.ldImm 0#4 0x0A#8, [0xFF#8]) := rfl
theorem test_decode_table_word : decodeTableWord 16 0xD125 = some (.drw 1#4 2#4 5#4) := by decide
theorem test_encode : encode (.drw 1#4 2#4 5#4) = 0xD125#16 ∧ encode (.loadRegs 15#4) = 0xFF65#16 ∧
    encode (.sneReg 1#4 2#4) = 0x9120#16 ∧ encode (.sys 0x0FF#12) = 0x00FF#16 := by decide

/-! ## Fetch -/

/-- The word's bytes straddle 0xFFF: the second is read at 0x000 (R54, D2), here the first font byte, 0xF0. -/
theorem test_fetch_wraps : fetchWord (bytesAt 0xFFF [0x13#8] (State.reset.setPc 0xFFF#12)) = 0x13F0#16 := by decide
/-- An odd program counter fetches as any other (R28). -/
theorem test_fetch_odd : fetchWord (bytesAt 0x201 [0x60#8, 0x0A#8] (State.reset.setPc 0x201#12)) = 0x600A#16 := by decide
/-- The word is placed at the program counter, big-endian, and the core runs. -/
theorem test_place_word : fetchWord ((State.reset.setHalted (.faulted (.stackUnderflow 0))).withFetchWord 16 0x600A) = 0x600A#16 ∧
    ((State.reset.setHalted (.faulted (.stackUnderflow 0))).withFetchWord 16 0x600A).halted = .running := by decide

/-! ## Control flow -/

/-- D-CF-1. -/
theorem test_sys :
    got 0x0123#16 (State.reset) (fun t => (t.pc, t.i)) = some (0x202, 0) := by decide
/-- D-CF-3. -/
theorem test_jp :
    got 0x1234#16 (State.reset) (fun t => t.pc) = some 0x234 := by decide
/-- D-CF-4. -/
theorem test_jp_self :
    got 0x1200#16 (State.reset) (fun t => t.pc) = some 0x200 := by decide
/-- D-CF-7. -/
theorem test_call :
    got 0x2400#16 (State.reset.setPc 0xFFE#12) (fun t => (t.stack, t.pc)) = some ([0xFFE], 0x400) := by decide
/-- P6: the second call, at 0x204. -/
theorem test_call_nested :
    got 0x2208#16 ((State.reset.setStack [0x200]).setPc 0x204#12) (fun t => (t.stack, t.pc)) =
      some ([0x204, 0x200], 0x208) := by decide
/-- D-CF-8: the return address wraps. -/
theorem test_ret :
    got 0x00EE#16 ((State.reset.setStack [0xFFE]).setPc 0x400#12) (fun t => (t.stack, t.pc)) =
      some ([], 0) := by decide
/-- D-CF-9. -/
theorem test_ret_empty :
    got 0x00EE#16 (State.reset) (fun t => (t.halted, t.pc)) =
      some (.faulted (.stackUnderflow 0x200), 0x200) := by decide
/-- D-CF-11: the sum wraps. -/
theorem test_jpV0 :
    got 0xBFFF#16 (regs [(0, 0xFF)]) (fun t => t.pc) = some 0x0FE := by decide
/-- D-CF-12. -/
theorem test_jpV0_odd :
    got 0xB000#16 (regs [(0, 1)]) (fun t => t.pc) = some 0x001 := by decide
/-- D-CF-15: the taken skip wraps. -/
theorem test_seImm :
    got 0x3342#16 ((regs [(3, 0x42)]).setPc 0xFFC#12) (fun t => t.pc) = some 0x000 := by decide
/-- D-CF-14. -/
theorem test_seImm_not :
    got 0x3342#16 ((regs [(3, 0x41)]).setPc 0x210#12) (fun t => t.pc) = some 0x212 := by decide
/-- D-CF-17. -/
theorem test_sneImm :
    got 0x4342#16 ((regs [(3, 0x41)]).setPc 0x210#12) (fun t => t.pc) = some 0x214 := by decide
/-- D-CF-16. -/
theorem test_sneImm_not :
    got 0x4342#16 ((regs [(3, 0x42)]).setPc 0x210#12) (fun t => t.pc) = some 0x212 := by decide
/-- D-CF-19: the low nibble is ignored. -/
theorem test_seReg :
    got 0x5121#16 ((regs [(1, 7), (2, 7)]).setPc 0x300#12) (fun t => t.pc) = some 0x304 := by decide
/-- R109. -/
theorem test_seReg_not :
    got 0x5120#16 ((regs [(1, 7), (2, 8)]).setPc 0x300#12) (fun t => t.pc) = some 0x302 := by decide
/-- D-CF-22. -/
theorem test_sneReg :
    got 0x912F#16 ((regs [(1, 7), (2, 8)]).setPc 0x300#12) (fun t => t.pc) = some 0x304 := by decide
/-- D-CF-21. -/
theorem test_sneReg_not :
    got 0x9121#16 ((regs [(1, 7), (2, 7)]).setPc 0x300#12) (fun t => t.pc) = some 0x302 := by decide
/-- D-DEC-5. -/
theorem test_noopFallback :
    got 0x800F#16 (regs [(0, 3), (15, 4)]) (fun t => (t.pc, t.getV 0, t.getV vf)) = some (0x202, 3, 4) := by decide

/-! ## Register loads, arithmetic and logic -/

/-- D-ALU-1. -/
theorem test_ldImm :
    got 0x600A#16 (State.reset) (fun t => (t.getV 0, t.pc)) = some (0x0A, 0x202) := by decide
/-- D-ALU-3: no carry. -/
theorem test_addImm :
    got 0x7101#16 (regs [(1, 0xFF), (15, 0x55)]) (fun t => (t.getV 1, t.getV vf)) = some (0, 0x55) := by decide
/-- D-ALU-5. -/
theorem test_ldReg :
    got 0x8120#16 (regs [(2, 0x33)]) (fun t => (t.getV 1, t.getV 2)) = some (0x33, 0x33) := by decide
/-- D-ALU-6. -/
theorem test_orReg :
    got 0x8011#16 (regs [(0, 0x0F), (1, 0xF0), (15, 7)]) (fun t => (t.getV 0, t.getV vf)) = some (0xFF, 7) := by decide
/-- D-ALU-7. -/
theorem test_andReg :
    got 0x8012#16 (regs [(0, 0x3C), (1, 0x0F)]) (fun t => (t.getV 0, t.getV 1)) = some (0x0C, 0x0F) := by decide
/-- D-ALU-8. -/
theorem test_xorReg :
    got 0x8333#16 (regs [(3, 0x5A)]) (fun t => t.getV 3) = some 0 := by decide
/-- D-ALU-10: a sum of 255 has no carry. -/
theorem test_addReg :
    got 0x8014#16 (regs [(0, 0x80), (1, 0x7F)]) (fun t => (t.getV 0, t.getV vf)) = some (0xFF, 0) := by decide
/-- D-ALU-13. -/
theorem test_addReg_vf :
    got 0x8FF4#16 (regs [(15, 0x90)]) (fun t => t.getV vf) = some 0x20 := by decide
/-- D-ALU-16. -/
theorem test_subReg :
    got 0x8F15#16 (regs [(15, 5), (1, 3)]) (fun t => t.getV vf) = some 0xFD := by decide
/-- D-ALU-17. -/
theorem test_subReg_vf :
    got 0x80F5#16 (regs [(0, 3), (15, 5)]) (fun t => (t.getV 0, t.getV vf)) = some (2, 1) := by decide
/-- D-ALU-18. -/
theorem test_shr :
    got 0x8016#16 (regs [(0, 5)]) (fun t => (t.getV 0, t.getV vf)) = some (2, 1) := by decide
/-- D-ALU-22. -/
theorem test_shr_vf :
    got 0x8F16#16 (regs [(15, 0xFF)]) (fun t => t.getV vf) = some 0 := by decide
/-- D-ALU-25. -/
theorem test_subnReg :
    got 0x8F17#16 (regs [(15, 0x0A), (1, 8)]) (fun t => t.getV vf) = some 7 := by decide
/-- D-ALU-26. -/
theorem test_subnReg_vf :
    got 0x80F7#16 (regs [(0, 0x0A), (15, 8)]) (fun t => (t.getV 0, t.getV vf)) = some (0xF7, 1) := by decide
/-- D-ALU-27. -/
theorem test_shl :
    got 0x801E#16 (regs [(0, 0x81)]) (fun t => (t.getV 0, t.getV vf)) = some (2, 1) := by decide
/-- D-ALU-29. -/
theorem test_shl_vf :
    got 0x8F1E#16 (regs [(15, 0x80)]) (fun t => t.getV vf) = some 2 := by decide
/-- D-ALU-30: with the draw 0xAB. -/
theorem test_rnd (h : Config.rand8 0 = 0xAB#8) :
    got 0xC30F#16 State.reset (fun t => t.getV 3) = some 0x0B := by
  have e : got 0xC30F#16 State.reset (fun t => t.getV 3) = some (Config.rand8 0 &&& 0x0F#8) := rfl
  rw [e, h]; decide
/-- D-ALU-31: whatever the draw. -/
theorem test_rnd_zero : got 0xC300#16 (regs [(3, 9)]) (fun t => t.getV 3) = some 0 := by
  have e : got 0xC300#16 (regs [(3, 9)]) (fun t => t.getV 3) = some (Config.rand8 0 &&& 0#8) := rfl
  rw [e, BitVec.and_zero]; rfl

/-! ## Index register and memory -/

/-- D-MEM-2. -/
theorem test_ldI :
    got 0xAFFF#16 (State.reset) (fun t => t.i) = some 0xFFF := by decide
/-- D-MEM-4: the sum wraps and no flag is written. -/
theorem test_addI :
    got 0xF21E#16 ((regs [(2, 1), (15, 0x33)]).setI 0xFFF#12) (fun t => (t.i, t.getV vf)) = some (0, 0x33) := by decide
/-- D-MEM-5. -/
theorem test_addI_high :
    got 0xF21E#16 ((regs [(2, 0x20)]).setI 0xFF0#12) (fun t => t.i) = some 0x010 := by decide
/-- D-MEM-7: the low nibble only. -/
theorem test_ldFont :
    got 0xF029#16 (regs [(0, 0x1A)]) (fun t => t.i) = some 0x032 := by decide
/-- D-MEM-14: the digits wrap into the font. -/
theorem test_ldBcd :
    got 0xF033#16 ((regs [(0, 0xFE)]).setI 0xFFF#12) (fun t => (memRead t.mem 0xFFF, memRead t.mem 0, memRead t.mem 1, t.i)) =
      some (2, 5, 4, 0xFFF) := by decide
/-- D-MEM-11. -/
theorem test_ldBcd_tens :
    got 0xF033#16 ((regs [(0, 0x2A)]).setI 0x300#12) (fun t => (memRead t.mem 0x300, memRead t.mem 0x301, memRead t.mem 0x302)) =
      some (0, 4, 2) := by decide
/-- D-MEM-17: the store wraps. -/
theorem test_storeRegs :
    got 0xF155#16 ((regs [(0, 0xAA), (1, 0xBB)]).setI 0xFFF#12) (fun t => (memRead t.mem 0xFFF, memRead t.mem 0, t.i)) =
      some (0xAA, 0xBB, 0xFFF) := by decide
/-- D-MEM-16: V1 is not stored. -/
theorem test_storeRegs_one :
    got 0xF055#16 ((regs [(0, 9), (1, 8)]).setI 0x400#12) (fun t => (memRead t.mem 0x400, memRead t.mem 0x401)) =
      some (9, 0) := by decide
/-- D-MEM-18. -/
theorem test_loadRegs :
    got 0xF265#16 (bytesAt 0x300 [1, 2, 3, 4] (State.reset.setI 0x300#12)) (fun t => (t.getV 0, t.getV 1, t.getV 2, t.getV 3, t.i)) =
      some (1, 2, 3, 0, 0x300) := by decide
/-- D-MEM-19: VF is loaded too. -/
theorem test_loadRegs_all :
    got 0xFF65#16 (bytesAt 0x30E [15, 16] (State.reset.setI 0x300#12)) (fun t => (t.getV 13, t.getV 14, t.getV 15)) =
      some (0, 15, 16) := by decide

/-! ## Display -/

/-- D-DRW-1. -/
theorem test_cls :
    got 0x00E0#16 ((regs [(15, 1)]).setDisp (setCell clearDisplay 63 0 true)) (fun t => (cells [(63, 0)] t, t.getV vf)) =
      some ([false], 1) := by decide
/-- D-DRW-2 (a cell inside and a cell beside glyph 0), D-DRW-9 (a collision), D-DRW-4 and D-DRW-7 (clipping at the right
edge, no wrap to column 0), D-DRW-8 (no wrap at 256). -/
theorem test_drw :
    let s := State.reset.setI 0x300#12
    got 0xD122#16 State.reset (fun t => (cells [(3, 0), (3, 1), (2, 1), (4, 0)] t, t.getV vf)) =
      some ([true, true, false, false], 0) ∧
    got 0xD121#16 ((bytesAt 0x300 [0xC0] s).setDisp (setCell clearDisplay 1 0 true))
      (fun t => (cells [(0, 0), (1, 0)] t, t.getV vf)) = some ([true, false], 1) ∧
    got 0xD121#16 (bytesAt 0x300 [0xFF] (s.setV 1 0x3E)) (fun t => (cells [(61, 0), (62, 0), (63, 0), (0, 0)] t, t.getV vf)) =
      some ([false, true, true, false], 0) ∧
    got 0xD121#16 (bytesAt 0x300 [0xFF] (s.setV 1 0x40)) (cells [(0, 0), (63, 0)]) = some [false, false] ∧
    got 0xD121#16 (bytesAt 0x300 [0xFF] (s.setV 1 0xFA)) (cells [(0, 0), (1, 0)]) = some [false, false] := by decide
/-- D-DRW-11 and the first row of D-DRW-12: X = 15 under each reading of R185. -/
theorem test_drw_readings :
    let s := bytesAt 0x300 [0x80] ((regs [(15, 8)]).setI 0x300#12)
    let u := (bytesAt 0x300 [0xC0] ((regs [(15, 3)]).setI 0x300#12)).setDisp
      (setCell (setCell clearDisplay 0 0 true) 3 0 true)
    let row : List (Nat × Nat) := [(0, 0), (1, 0), (2, 0), (3, 0), (4, 0)]
    cells [(0, 0), (8, 0)] (drawSprite .beforeClear 15 1 1 s) = [false, true] ∧
    cells [(0, 0), (8, 0)] (drawSprite .afterClear 15 1 1 s) = [true, false] ∧
    cells [(0, 0), (8, 0)] (drawSprite .live 15 1 1 s) = [true, false] ∧
    cells row (drawSprite .beforeClear 15 1 2 u) = [true, false, false, false, true] ∧
    cells row (drawSprite .afterClear 15 1 2 u) = [false, true, false, true, false] ∧
    cells row (drawSprite .live 15 1 2 u) = [false, false, true, true, false] ∧
    (drawSprite .live 15 1 2 u).getV vf = 1 := by decide

/-! ## Keys and timers -/

/-- D-KT-2: only the low nibble counts. -/
theorem test_skp :
    got 0xE09E#16 (((regs [(0, 0x15)]).setKeys 0x0020#16).setPc 0x206#12) (fun t => t.pc) = some 0x20A := by decide
/-- D-KT-3. -/
theorem test_skp_not :
    got 0xE09E#16 (((regs [(0, 5)]).setKeys 0x0010#16).setPc 0x206#12) (fun t => t.pc) = some 0x208 := by decide
/-- D-KT-4. -/
theorem test_sknp :
    got 0xE0A1#16 ((regs [(0, 5)]).setPc 0x206#12) (fun t => t.pc) = some 0x20A := by decide
/-- D-KT-5. -/
theorem test_sknp_not :
    got 0xE0A1#16 (((regs [(0, 5)]).setKeys 0x0020#16).setPc 0x206#12) (fun t => t.pc) = some 0x208 := by decide
/-- D-KT-9. -/
theorem test_ldFromDt :
    got 0xF107#16 (State.reset.setDt 0x3C) (fun t => t.getV 1) = some 0x3C := by decide
/-- D-KT-6. -/
theorem test_ldKey_waits :
    got 0xF30A#16 ((regs [(3, 7)]).setPc 0x210#12) (fun t => (t.getV 3, t.pc)) = some (7, 0x210) := by decide
/-- D-KT-7: the lowest key held. -/
theorem test_ldKey :
    got 0xF30A#16 ((State.reset.setKeys 0x0014#16).setPc 0x210#12) (fun t => (t.getV 3, t.pc)) =
      some (2, 0x212) := by decide
/-- D-KT-10. -/
theorem test_ldDt :
    got 0xF015#16 (regs [(0, 5)]) (fun t => (t.dt, t.st)) = some (5, 0) := by decide
/-- D-KT-11. -/
theorem test_ldSt :
    got 0xF418#16 (regs [(4, 0x10)]) (fun t => (t.dt, t.st)) = some (0, 0x10) := by decide

/-! ## The host's transactions -/

/-- A session after a reset. -/
def fresh (s : State) : Session := ⟨s, .loadable⟩

/-- A view of the core after one transaction. -/
def gave {α : Type} (x : Transaction) (ses : Session) (view : State → α) : Option α :=
  (transact Config.defaultFont ses x).map (fun r => view r.1.core)

/-- D-HOST-1 and D-HOST-2: a timer at zero stays there. -/
theorem test_timer_tick :
    gave .timerTick (fresh ((State.reset.setDt 5).setSt 0)) (fun t => (t.dt, t.st)) = some (4, 0) ∧
    gave .timerTick (fresh ((State.reset.setDt 1).setSt 2)) (fun t => (t.dt, t.st)) = some (0, 1) := by decide
/-- D-HOST-3 to D-HOST-6. -/
theorem test_key_events :
    gave (.keyPressed 0x0020#16) (fresh (State.reset.setKeys 0x0020#16)) (fun t => t.keys) = some 0x0020#16 ∧
    gave (.keyReleased 0x0004#16) (fresh (State.reset.setKeys 0x0024#16)) (fun t => t.keys) = some 0x0020#16 ∧
    gave (.keyPressed 0x0003#16) (fresh State.reset) (fun t => t.keys) = none := by decide
/-- The ROM of L1-6 lands at 0x200; a second load is still a move, a load after a step is none (R241). -/
theorem test_load :
    gave (.load [0x60, 0x0A]) (fresh State.reset) (fun t => (fetchWord t, memRead t.mem 0x202)) = some (0x600A#16, 0) ∧
    gave (.load [0x60]) ⟨State.reset, .stepped⟩ (fun t => t.pc) = none := by decide
/-- D-HOST-7. -/
theorem test_load_too_long (font : Config.FontTable) : transact font (fresh State.reset) (.load (List.replicate 3585 0#8)) = none := by
  simp only [transact, transactReady, fresh, romMax, List.length_replicate]; rfl
/-- D-HOST-8: a step before any load runs the 0NNN no-op 0x0000, and P5: the fault is the step's report. -/
theorem test_step_transaction :
    gave .step (fresh State.reset) (fun t => t.pc) = some 0x202#12 ∧
    (transact Config.defaultFont (fresh (placeWord State.reset 0x00EE#16)) .step).map (fun r => r.2) =
      some (.status (.fault (.stackUnderflow 0x200#12))) := ⟨rfl, rfl⟩
/-- Nothing but reset has a move before the first reset (R43). -/
theorem test_before_reset (font : Config.FontTable) : transact font ⟨State.reset, .beforeReset⟩ .step = none ∧
    gave .reset ⟨State.reset.setI 5#12, .beforeReset⟩ (fun t => t.i) = some 0#12 := ⟨rfl, rfl⟩

/-! ## Witnesses: for each statement with hypotheses, a state and operands that meet them together -/

/-- A view of the state an instruction answers. -/
def ran {α : Type} (i : Instr) (s : State) (view : State → α) : Option α :=
  match exec i s with
  | .next t => some (view t)
  | _ => none

/-- The launch state with its first cell, or another, at 1. -/
def litAt (x y : Nat) : State := State.reset.setDisp (setCell clearDisplay x y true)

/-- DecodeOfEncodeIsIdentity: operands at the ends of their ranges, and the words beside 00E0 and 00EE. -/
theorem witness_decode_of_encode : (Instr.drw 15 15 15).wellFormed = true ∧ (Instr.sys 0x0DF#12).wellFormed = true ∧
    (Instr.sys 0x0EF#12).wellFormed = true ∧ (Instr.noopFallback 0xFFFF#16).wellFormed = true := by decide

/-- EncodeOfDecodeIsWord and FallbackWordsAreNoOps: a word of each side of each condition. -/
theorem witness_words : (0x5121#16).toNat / 4096 = 5 ∧ (0x912F#16).toNat / 4096 = 9 ∧
    (0x4FFF#16).toNat / 4096 ≠ 5 ∧ isFallbackWord 0x800D#16 = true ∧ isFallbackWord 0x800E#16 = false ∧
    isFallbackWord 0xE09D#16 = true ∧ isFallbackWord 0xF066#16 = true := by decide

/-- StepRunsDecodedInstruction: at 0x200 after reset, and at 0xFFF with the second byte at 0x000. -/
theorem witness_step_runs :
    (State.reset.halted = .running ∧ decodeBytes [memRead State.reset.mem 0x200, memRead State.reset.mem 0x201] =
      .ok (.sys 0#12, [])) ∧
    (let s := bytesAt 0xFFF [0x13#8] (State.reset.setPc 0xFFF#12)
     s.halted = .running ∧ decodeBytes [memRead s.mem s.pc.toNat, memRead s.mem ((s.pc.toNat + 1) % 4096)] =
      .ok (.jp 0x3F0#12, [])) := ⟨⟨rfl, rfl⟩, rfl, rfl⟩

/-- HaltedCoreHasNoStep. -/
theorem witness_halted :
    (State.reset.setHalted (.faulted (.stackUnderflow 0xFFF))).halted = .faulted (.stackUnderflow 0xFFF) := rfl

/-- A font that is not the default: every byte the same. -/
def flatFont (b : Byte) : Config.FontTable := Vector.replicate 16 (Vector.replicate 5 b)

/-- ResetLeavesEveryElement and FirstStepAfterReset: a reset with another font writes that font, and the default one's is
`State.reset` from a state that is not. -/
theorem witness_reset : resetCore Config.defaultFont (State.reset.setI 1#12) = State.reset ∧
    memRead (resetCore (flatFont 0x5A) State.reset).mem 79 = 0x5A#8 ∧
    memRead (resetCore (flatFont 0x5A) State.reset).mem 80 = 0#8 := by
  rw [resetCore_default, memRead_resetCore, memRead_resetCore]; decide

/-- ResetLeavesEveryElement: a session before the first reset, and a halted one. -/
theorem witness_reset_sessions : (⟨State.reset.setI 1#12, .beforeReset⟩ : Session).phase = .beforeReset ∧
    Transaction.readSoundTimer ≠ .reset ∧
    gave .reset ⟨State.reset.setHalted (.faulted (.stackUnderflow 0)), .stepped⟩ (fun t => t.halted) = some .running := by
  decide

/-- StepTransactionReportsOk: a running core after a reset, at no 00EE and at a 00EE with an entry on the stack. -/
theorem witness_step_ok : (fresh State.reset).phase ≠ .beforeReset ∧ State.reset.halted = .running ∧
    fetchInstr State.reset ≠ .ret ∧ (let s := (placeWord State.reset 0x00EE#16).setStack [0x200]
      s.halted = .running ∧ fetchInstr s = .ret ∧ s.stack ≠ []) := by decide

/-- A running core with canonical memory meets the invariant. -/
theorem inv_of_running {s : State} (h : s.mem.wf) (r : s.halted = .running) : Inv s :=
  ⟨h, fun f e => by rw [r] at e; cases e⟩

/-- StepKeepsInvariant: a step that stores over the font, and a step that halts. -/
theorem witness_step_keeps :
    (let s := placeWord (State.reset.setI 0xFFF#12) 0xF155#16
     Inv s ∧ ∃ t, step s = .next t ∧ t.mem ≠ s.mem) ∧
    (let s := placeWord State.reset 0x00EE#16
     Inv s ∧ ∃ t, step s = .next t ∧ t.halted = .faulted (.stackUnderflow 0x200)) :=
  ⟨⟨inv_of_running (by decide) rfl, _, rfl, by decide⟩, ⟨inv_of_running (by decide) rfl, _, rfl, rfl⟩⟩

/-- TransactionsKeepInvariant and HostReachesNothingElse: every transaction has a move after a reset. -/
theorem witness_transactions : Inv (fresh State.reset).core ∧ (fresh State.reset).phase ≠ .beforeReset ∧
    ∀ x ∈ [Transaction.reset, .load [1], .step, .keyPressed 1, .keyReleased 0x8000, .timerTick, .readDisplay,
      .readSoundTimer], (transact Config.defaultFont (fresh State.reset) x).isSome :=
  ⟨inv_of_running (by decide) rfl, by decide, by
    intro x hx
    fin_cases hx <;> rfl⟩

/-- OnlyReturnFaults: the only change of `HALTED`. -/
theorem witness_only_return_faults : ran .ret State.reset (fun t => t.halted) ≠ some State.reset.halted := by decide

/-- GeneralRegisterWriters: an instruction that answers, a register it does not write, and FX0A with no key held. -/
theorem witness_register_writers : ran (.loadRegs 14) State.reset (fun t => t.pc) = some 0x202 ∧ vf ∉ vWrites (.loadRegs 14) ∧
    ran (.ldKey 3) State.reset (fun t => t.pc) = some 0x200 ∧ State.reset.keys = 0#16 := by decide

/-- ProgramCounterValues: an answer for each of its clauses, at the ends of the program counter's range. -/
theorem witness_pc_values :
    ran (.jp 0xFFF) State.reset (fun t => t.pc) = some 0xFFF ∧ ran (.call 0) State.reset (fun t => t.pc) = some 0 ∧
    ran (.jpV0 0xFFF) (regs [(0, 0xFF)]) (fun t => t.pc) = some 0x0FE ∧
    ran .ret State.reset (fun t => t.pc) = some 0x200 ∧
    ran .ret (State.reset.setStack [0xFFE]) (fun t => t.pc) = some 0 ∧
    ran (.ldKey 0) State.reset (fun t => t.pc) = some 0x200 ∧
    ran (.ldKey 0) (State.reset.setKeys 1) (fun t => t.pc) = some 0x202 ∧
    ran (.seReg 0 0) (State.reset.setPc 0xFFC) (fun t => t.pc) = some 0 ∧
    ran (.sneReg 0 0) (State.reset.setPc 0xFFE) (fun t => t.pc) = some 0 := by decide

/-- SpecialStateWriters: each part changes somewhere; a stored byte at the wrap of the addresses. -/
theorem witness_special_writers :
    ran (.ldI 1) State.reset (fun t => t.i) ≠ some State.reset.i ∧
    ran (.addI 0) (regs [(0, 1)]) (fun t => t.i) ≠ some State.reset.i ∧
    ran (.ldFont 0) (regs [(0, 1)]) (fun t => t.i) ≠ some State.reset.i ∧
    ran (.call 0) State.reset (fun t => t.stack) ≠ some State.reset.stack ∧
    ran .ret (State.reset.setStack [1]) (fun t => t.stack) ≠ some [1] ∧
    ran (.ldDt 0) (regs [(0, 1)]) (fun t => t.dt) ≠ some 0 ∧ ran (.ldSt 0) (regs [(0, 1)]) (fun t => t.st) ≠ some 0 ∧
    ran (.ldBcd 0) ((regs [(0, 1)]).setI 0xFFD) (fun t => memRead t.mem 0xFFF) ≠ some 0 ∧
    ran (.storeRegs 15) ((regs [(15, 1)]).setI 0xFFF) (fun t => memRead t.mem 14) ≠ some (memRead [] 14) := by decide

/-- DisplayWriters: 00E0, DXYN, reset and a step that change it. -/
theorem witness_display_writers :
    ran .cls (litAt 63 31) (fun t => cellAt t.disp 63 31) = some false ∧
    ran (.drw 0 1 1) State.reset (fun t => cellAt t.disp 0 0) = some true ∧
    gave .reset (fresh (litAt 63 31)) (fun t => cellAt t.disp 63 31) = some false ∧
    gave .step (fresh (placeWord (litAt 63 31) 0x00E0)) (fun t => cellAt t.disp 63 31) = some false := by decide

/-- SoundTimerAndHaltedUnread: an instruction that answers. -/
theorem witness_unread : ran (.ldSt 15) State.reset (fun t => t.pc) = some 0x202 := by decide

/-- MachineCallIsNoOp: the words beside 00E0 and 00EE. -/
theorem witness_sys : (0x0DF#12 ≠ 0x0E0#12 ∧ 0x0DF#12 ≠ 0x0EE#12) ∧ (0x0EF#12 ≠ 0x0E0#12 ∧ 0x0EF#12 ≠ 0x0EE#12) := by decide

/-- ReturnResumesAfterCall: an entry whose return wraps. -/
theorem witness_return : (State.reset.setStack [0xFFE, 0x200]).stack = 0xFFE :: [0x200] := rfl

/-- ReturnOnEmptyStackHalts: a running core that fetches 00EE. -/
theorem witness_return_empty : let s := placeWord State.reset 0x00EE#16
    s.stack = [] ∧ s.halted = .running ∧ fetchInstr s = .ret := by decide

/-- BoundedStackOverflows: the last entry that fits and the first that does not. -/
theorem witness_bounded : ([0x200, 0x204] : List Addr).length < 3 ∧ ¬ ([0x200, 0x204] : List Addr).length < 2 ∧
    stackFull (some 3) [0x200, 0x204] = false ∧ stackFull (some 2) [0x200, 0x204] = true := by decide

/-- NestedCallsReturn: two calls in a row, one inside another, and an instruction between (P6). -/
theorem witness_nested : Nested [.call 0x204, .ldImm 0 1, .call 0x208, .ret, .ret, .call 0x300, .ret] :=
  .nest 0x204 (.step rfl (.nest 0x208 .nil .nil)) (.nest 0x300 .nil .nil)

/-- AddWithCarry, SubtractWithBorrow, ReverseSubtractWithBorrow, ShiftRightByOne, ShiftLeftByOne, and the draws with and
without X or Y = 15: each premise about X and Y. -/
theorem witness_flag_register : (14#4 ≠ vf ∧ 0#4 ≠ vf) ∧ 15#4 = vf := by decide

/-- StoreLoadRoundTrip: the state that FX55 leaves, with its registers cleared, has the same `I` and bytes. -/
theorem witness_round_trip :
    ∃ t, exec (.storeRegs 15) ((regs [(15, 7)]).setI 0xFFF#12) = .next t ∧
      let u := t.setV 15 0
      u.i = t.i ∧ (∀ k ≤ 15, memRead u.mem (t.i.toNat + k) = memRead t.mem (t.i.toNat + k)) ∧ u.getV 15 ≠ 7 :=
  ⟨_, rfl, rfl, fun _ _ => rfl, by decide⟩

/-- FetchSeesEarlierStores: in the middle of memory, where the next instruction is at 0x000, and where it is at 0xFFF with
its second byte at 0x000 (D2). -/
theorem witness_fetch_sees :
    (let s := placeWord (State.reset.setI 0x202#12) 0xF155#16
     s.i = s.pc + 2#12 ∧ s.halted = .running ∧ fetchInstr s = .storeRegs 1) ∧
    (let s := placeWord (State.reset.setPc 0xFFE#12) 0xFF55#16
     s.i = s.pc + 2#12 ∧ s.halted = .running ∧ fetchInstr s = .storeRegs 15) ∧
    (let s := placeWord ((State.reset.setPc 0xFFD#12).setI 0xFFF#12) 0xF155#16
     s.i = s.pc + 2#12 ∧ s.halted = .running ∧ fetchInstr s = .storeRegs 1) := by decide

/-- A sprite of no row collides with nothing. -/
theorem spriteCollides_none (s : State) (x y : Nat) : spriteCollides s x y 0 = false := by
  simp [spriteCollides, spriteCovers, spriteCoversPart]

/-- DrawWithFlagCoordinate: a sprite with no row collides with nothing; a sprite on a cell at 1 collides. -/
theorem witness_draw_flag : spriteCollides (litAt 0 0) 0 0 0 = false ∧ spriteCollides (litAt 0 0) 0 0 1 = true :=
  ⟨spriteCollides_none _ _ _, by decide⟩

/-- DrawWithFlagCoordinate: the first collision is the first pixel of the sprite (D-DRW-12), and the last one of it. -/
theorem witness_draw_collision :
    (let s := (bytesAt 0x300 [0xC0] ((regs [(15, 3)]).setI 0x300#12)).setDisp (setCell clearDisplay 0 0 true)
     0 < 8 * (2#4).toNat ∧ pixelCollides s 0 0 0 = true) ∧
    (let s := (bytesAt 0x300 [0xFF] (State.reset.setI 0x300#12)).setDisp (setCell clearDisplay 7 0 true)
     7 < 8 * (1#4).toNat ∧ pixelCollides s 0 0 7 = true ∧ ∀ j < 7, pixelCollides s 0 0 j = false) := by decide

/-- WaitForKey: no key, and the highest key only. -/
theorem witness_wait : State.reset.keys = 0#16 ∧ (State.reset.setKeys 0x8000).keys ≠ 0#16 := by decide

/-- RunsThatStandStill: a core at FX0A with no key, a key mask, and a jump to itself at the top of memory. -/
theorem witness_stand_still :
    (let s := placeWord State.reset 0xF30A#16
     s.halted = .running ∧ fetchInstr s = .ldKey 3 ∧ s.keys = 0#16) ∧ oneHot 0x8000#16 = true ∧
    EndsWell 0xFFE (placeWord (State.reset.setPc 0xFFE#12) 0x1FFE#16) :=
  ⟨by decide, by decide, by decide, by decide, by decide⟩

/-- KeyEvents: the masks of the first and the last key, and two masks that are none. -/
theorem witness_key_events : (fresh State.reset).phase ≠ .beforeReset ∧ 0x0001#16 = 1#16 <<< 0 ∧ 0x8000#16 = 1#16 <<< 15 ∧
    (∀ k < 16, 0x0000#16 ≠ 1#16 <<< k) ∧ (∀ k < 16, 0x8001#16 ≠ 1#16 <<< k) := by decide

/-- RomLoad and TimerTick: the longest ROM and one byte more, in a session that can load and in one that has stepped. -/
theorem witness_load : (fresh State.reset).phase = .loadable ∧ (List.replicate 3584 0#8).length ≤ 3584 ∧
    3584 < (List.replicate 3585 0#8).length ∧ (⟨State.reset, .stepped⟩ : Session).phase = .stepped := by
  simp only [List.length_replicate]; decide

end Sys2Proof.Tests
end

section
/-! The words that the decoder gives to the no-op fallback (30_encoding.md R76 to R78, R81): one lemma for each
secondary dispatch, in the sub-opcodes that WellFormed.lean lists, and from them the first-level dispatch. -/

namespace Sys2Proof

theorem decodeOp0_ne_noopFallback (w raw : Word) : decodeOp0 w ≠ .noopFallback raw := by
  unfold decodeOp0
  split
  · nofun
  · split <;> nofun

/-- R76: the fallback of `op = 8`. -/
theorem decodeOp8_eq_noopFallback_iff (w : Word) :
    decodeOp8 w = .noopFallback w ↔ w.toNat % 16 ∉ aluSubOpcodes := by
  rw [← nField_toNat]
  unfold decodeOp8
  split <;> simp_all [aluSubOpcodes]

/-- R77: the fallback of `op = E`. -/
theorem decodeOpE_eq_noopFallback_iff (w : Word) :
    decodeOpE w = .noopFallback w ↔ w.toNat % 256 ∉ keySubOpcodes := by
  rw [← nnField_toNat]
  unfold decodeOpE
  split <;> simp_all [keySubOpcodes]

/-- R78: the fallback of `op = F`. -/
theorem decodeOpF_eq_noopFallback_iff (w : Word) :
    decodeOpF w = .noopFallback w ↔ w.toNat % 256 ∉ miscSubOpcodes := by
  rw [← nnField_toNat]
  unfold decodeOpF
  split <;> simp_all [miscSubOpcodes]

/-- Only the opcodes 8, E and F reach the fallback, each through its secondary dispatch (R74, R81). -/
theorem decodeWord_eq_noopFallback_iff (w : Word) :
    decodeWord w = .noopFallback w ↔
      (w.toNat / 4096 = 0x8 ∧ w.toNat % 16 ∉ aluSubOpcodes) ∨
      (w.toNat / 4096 = 0xE ∧ w.toNat % 256 ∉ keySubOpcodes) ∨
      (w.toNat / 4096 = 0xF ∧ w.toNat % 256 ∉ miscSubOpcodes) := by
  rw [← decodeOp8_eq_noopFallback_iff, ← decodeOpE_eq_noopFallback_iff, ← decodeOpF_eq_noopFallback_iff,
    ← opField_toNat]
  have hop : (opField w).toNat < 16 := (opField w).isLt
  interval_cases h : (opField w).toNat <;> simp [decodeWord, h, decodeOp0_ne_noopFallback]

/-- The low nibbles of an `op = 8` word that select nothing, listed (R76, R81). -/
theorem mod_not_mem_aluSubOpcodes_iff (n : Nat) :
    n % 16 ∉ aluSubOpcodes ↔ n % 16 ∈ [0x8, 0x9, 0xA, 0xB, 0xC, 0xD, 0xF] := by
  have hn : n % 16 < 16 := Nat.mod_lt n (by decide)
  simp only [aluSubOpcodes, List.mem_cons, List.not_mem_nil, or_false]
  omega

end Sys2Proof

namespace Sys2Proof.Machine

/-- The meaning of the fallback (R81). -/
theorem exec_noopFallback (raw : Word) (s : State) : exec (.noopFallback raw) s = .next s.advance := rfl

/-- Settles O4: the first-level dispatch is followed into each secondary one, and the fallback is an `advance`. -/
theorem fallbackWordsAreNoOps : Obligations.FallbackWordsAreNoOps := by
  refine ⟨fun w => ?_, fun w s => ?_⟩
  · rw [decodeWord_eq_noopFallback_iff, mod_not_mem_aluSubOpcodes_iff, keySubOpcodes, miscSubOpcodes]
  · exact ⟨s.advance, exec_noopFallback w s, pcMoved_advance rfl, (Keeps.refl [] s).advance⟩

end Sys2Proof.Machine
end

section
/-! The control-flow instructions that leave the stack alone (40_control_flow.md R100, R103, R105, R107, R108): the words
that decode to them, their meanings as one move of the program counter each, and the obligations about them. -/

namespace Sys2Proof

/-! ## Decoding (R71, R74, R75) -/

/-- The low twelve bits tell a word of the ADDR format from another word. -/
theorem addr_ne_of_nnnField_ne (a : BitVec 4) {nnn : Addr} {w : Word} (h : nnn ≠ nnnField w) : a ++ nnn ≠ w := by
  rintro rfl
  exact h (nnnField_addr a nnn).symm

/-- The opcode 0 is a machine call unless the whole word is 00E0 or 00EE (R75). -/
theorem decodeWord_sys {nnn : Addr} (hcls : nnn ≠ 0x0E0#12) (hret : nnn ≠ 0x0EE#12) :
    decodeWord (0x0#4 ++ nnn) = .sys nnn := by
  have hop0 : decodeWord (0x0#4 ++ nnn) = decodeOp0 (0x0#4 ++ nnn) := by simp [decodeWord]
  have hcls' : 0x0#4 ++ nnn ≠ 0x00E0#16 := addr_ne_of_nnnField_ne _ hcls
  have hret' : 0x0#4 ++ nnn ≠ 0x00EE#16 := addr_ne_of_nnnField_ne _ hret
  rw [hop0, decodeOp0, if_neg hcls', if_neg hret', nnnField_addr]

theorem decodeWord_jp (nnn : Addr) : decodeWord (0x1#4 ++ nnn) = .jp nnn := by
  simp [decodeWord]

theorem decodeWord_jpV0 (nnn : Addr) : decodeWord (0xB#4 ++ nnn) = .jpV0 nnn := by
  simp [decodeWord]

theorem decodeWord_seImm (x : RegNum) (nn : Byte) : decodeWord (0x3#4 ++ x ++ nn) = .seImm x nn := by
  simp [decodeWord]

theorem decodeWord_sneImm (x : RegNum) (nn : Byte) : decodeWord (0x4#4 ++ x ++ nn) = .sneImm x nn := by
  simp [decodeWord]

end Sys2Proof

namespace Sys2Proof.Machine

/-! ## Meanings -/

/-- The meaning of 0NNN does not mention NNN (R100). -/
theorem exec_sys (nnn : Addr) (s : State) : exec (.sys nnn) s = .next s.advance := rfl

/-- The meaning of 1NNN (R103). -/
theorem exec_jp (nnn : Addr) (s : State) : exec (.jp nnn) s = .next (s.setPc nnn) := rfl

/-- The meaning of BNNN (R105). -/
theorem exec_jpV0 (nnn : Addr) (s : State) :
    exec (.jpV0 nnn) s = .next (s.setPc (zextAddr (s.getV 0#4) + nnn)) := rfl

/-- The meaning of 3XNN (R107). -/
theorem exec_seImm (x : RegNum) (nn : Byte) (s : State) :
    exec (.seImm x nn) s = .next (s.skipIf (s.getV x == nn)) := rfl

/-- The meaning of 4XNN (R108). -/
theorem exec_sneImm (x : RegNum) (nn : Byte) (s : State) :
    exec (.sneImm x nn) s = .next (s.skipIf (s.getV x != nn)) := rfl

/-! ## Moves of the program counter and their frames -/

/-- A jump to where the program counter stands changes nothing (R103). -/
@[simp] theorem setPc_self (s : State) : s.setPc s.pc = s := rfl

/-- A byte added to an address, on unbounded integers (R105). -/
theorem zextAddr_add_toNat (b : Byte) (a : Addr) : (zextAddr b + a).toNat = (b.toNat + a.toNat) % 4096 := by
  rw [BitVec.toNat_add, zextAddr_toNat]

/-- A skip on the equality of two bytes (R106). -/
theorem pcMoved_skipIf_beq (s : State) (a b : Byte) :
    if a = b then PcMoved 4 s (s.skipIf (a == b)) else PcMoved 2 s (s.skipIf (a == b)) := by
  simpa only [beq_iff_eq] using pcMoved_skipIf s (a == b)

/-- A skip on the inequality of two bytes (R106). -/
theorem pcMoved_skipIf_bne (s : State) (a b : Byte) :
    if a = b then PcMoved 2 s (s.skipIf (a != b)) else PcMoved 4 s (s.skipIf (a != b)) := by
  simpa only [bne_iff_ne, ne_eq, ite_not] using pcMoved_skipIf s (a != b)

theorem keeps_advance (s : State) : Keeps [] s s.advance := (Keeps.refl [] s).advance

theorem keeps_setPc (s : State) (a : Addr) : Keeps [] s (s.setPc a) := (Keeps.refl [] s).setPc a

theorem keeps_skipIf (s : State) (c : Bool) : Keeps [] s (s.skipIf c) := (Keeps.refl [] s).skipIf c

/-! ## The obligations -/

/-- Settles O19: NNN differs from the low bits of 00E0 and 00EE, and the meaning is an `advance` for every NNN. -/
theorem machineCallIsNoOp : Obligations.MachineCallIsNoOp := by
  refine ⟨fun _ hcls hret => decodeWord_sys hcls hret, fun nnn s => ?_⟩
  exact ⟨s.advance, exec_sys nnn s, pcMoved_advance rfl, keeps_advance s⟩

/-- Settles O20: the meaning is `setPc`, which at the program counter's own value is the identity. -/
theorem jumpSetsPc : Obligations.JumpSetsPc := by
  refine fun nnn s => ⟨decodeWord_jp nnn, ⟨s.setPc nnn, exec_jp nnn s, setPc_pc s nnn, keeps_setPc s nnn⟩, ?_⟩
  rw [exec_jp, setPc_self]

/-- Settles O26: the 12-bit sum of the widened `V[0]` and NNN is the sum on unbounded integers, mod 4096. -/
theorem jumpByV0 : Obligations.JumpByV0 := by
  refine fun nnn s => ⟨decodeWord_jpV0 nnn, _, exec_jpV0 nnn s, ?_, keeps_setPc s _⟩
  rw [setPc_pc, zextAddr_add_toNat]

/-- Settles O27: both meanings are `skipIf`, one on the equality of `V[X]` and NN and one on its negation. -/
theorem skipOnImmediate : Obligations.SkipOnImmediate := by
  refine fun x nn s => ⟨decodeWord_seImm x nn, decodeWord_sneImm x nn, ?_, ?_⟩
  · exact ⟨_, exec_seImm x nn s, pcMoved_skipIf_beq s (s.getV x) nn, keeps_skipIf s _⟩
  · exact ⟨_, exec_sneImm x nn s, pcMoved_skipIf_bne s (s.getV x) nn, keeps_skipIf s _⟩

end Sys2Proof.Machine
end

section
/-! The register loads, the immediate addition and the bitwise logic (41_register_alu.md R130 to R135): the words that
decode to them, their meanings as one `writeResult` each, and the obligations about them. -/

namespace Sys2Proof

/-! ## Decoding (R74, R76) -/

theorem decodeWord_ldImm (x : RegNum) (nn : Byte) : decodeWord (0x6#4 ++ x ++ nn) = .ldImm x nn := by
  simp [decodeWord]

theorem decodeWord_addImm (x : RegNum) (nn : Byte) : decodeWord (0x7#4 ++ x ++ nn) = .addImm x nn := by
  simp [decodeWord]

/-- The opcode 8 goes to its secondary dispatch, whatever the low nibble (R74). -/
theorem decodeWord_op8 (x y n : BitVec 4) :
    decodeWord (0x8#4 ++ x ++ y ++ n) = decodeOp8 (0x8#4 ++ x ++ y ++ n) := by
  simp [decodeWord]

theorem decodeWord_ldReg (x y : RegNum) : decodeWord (0x8#4 ++ x ++ y ++ 0x0#4) = .ldReg x y := by
  simp [decodeWord_op8, decodeOp8]

theorem decodeWord_orReg (x y : RegNum) : decodeWord (0x8#4 ++ x ++ y ++ 0x1#4) = .orReg x y := by
  simp [decodeWord_op8, decodeOp8]

theorem decodeWord_andReg (x y : RegNum) : decodeWord (0x8#4 ++ x ++ y ++ 0x2#4) = .andReg x y := by
  simp [decodeWord_op8, decodeOp8]

theorem decodeWord_xorReg (x y : RegNum) : decodeWord (0x8#4 ++ x ++ y ++ 0x3#4) = .xorReg x y := by
  simp [decodeWord_op8, decodeOp8]

end Sys2Proof

namespace Sys2Proof.Machine

/-! ## Meanings -/

/-- The meaning of 6XNN (R130). -/
theorem exec_ldImm (x : RegNum) (nn : Byte) (s : State) : exec (.ldImm x nn) s = writeResult x nn s := rfl

/-- The meaning of 7XNN (R131). -/
theorem exec_addImm (x : RegNum) (nn : Byte) (s : State) :
    exec (.addImm x nn) s = writeResult x (s.getV x + nn) s := rfl

/-- The meaning of 8XY0 (R132). -/
theorem exec_ldReg (x y : RegNum) (s : State) : exec (.ldReg x y) s = writeResult x (s.getV y) s := rfl

/-- The meaning of 8XY1 (R133). -/
theorem exec_orReg (x y : RegNum) (s : State) :
    exec (.orReg x y) s = writeResult x (s.getV x ||| s.getV y) s := rfl

/-- The meaning of 8XY2 (R134). -/
theorem exec_andReg (x y : RegNum) (s : State) :
    exec (.andReg x y) s = writeResult x (s.getV x &&& s.getV y) s := rfl

/-- The meaning of 8XY3 (R135). -/
theorem exec_xorReg (x y : RegNum) (s : State) :
    exec (.xorReg x y) s = writeResult x (s.getV x ^^^ s.getV y) s := rfl

/-! ## The result of an instruction -/

/-- Everything `writeResult` does: one register written, the program counter past the instruction (R27), and nothing
else moved, so that the flag keeps its value unless it is the register written. -/
theorem writeResult_spec (x : RegNum) (b : Byte) (s : State) :
    ∃ t, writeResult x b s = .next t ∧ t.getV x = b ∧ PcMoved 2 s t ∧ Keeps [.reg x] s t :=
  ⟨(s.setV x b).advance, rfl, getV_setV_self s x b, pcMoved_advance (setV_pc s x b), (keeps_setV s x b).advance⟩

/-- The same, of a result whose bits are known one by one. -/
theorem writeResult_bits (x : RegNum) (s : State) {b : Byte} {bit : Nat → Bool} (hbit : ∀ k, b.getLsbD k = bit k) :
    ∃ t, writeResult x b s = .next t ∧ PcMoved 2 s t ∧ Keeps [.reg x] s t ∧ ∀ k, (t.getV x).getLsbD k = bit k := by
  obtain ⟨t, hnext, hval, hpc, hkeeps⟩ := writeResult_spec x b s
  exact ⟨t, hnext, hpc, hkeeps, fun k => by rw [hval, hbit k]⟩

/-! ## The obligations -/

/-- Settles O29: the meaning is a `writeResult` of NN. -/
theorem loadImmediate : Obligations.LoadImmediate := by
  refine fun x nn s => ⟨decodeWord_ldImm x nn, ?_⟩
  rw [exec_ldImm]
  exact writeResult_spec x nn s

/-- Settles O30: the 8-bit sum is the sum on numbers, mod 256, and the frame of `writeResult` is `V[X]` alone. -/
theorem addImmediateWithoutCarry : Obligations.AddImmediateWithoutCarry := by
  refine fun x nn s => ⟨decodeWord_addImm x nn, ?_⟩
  rw [exec_addImm]
  obtain ⟨t, hnext, hval, hpc, hkeeps⟩ := writeResult_spec x (s.getV x + nn) s
  exact ⟨t, hnext, by rw [hval, BitVec.toNat_add], hpc, hkeeps⟩

/-- Settles O31: the meaning is a `writeResult` of `V[Y]`, read before the write. -/
theorem moveRegister : Obligations.MoveRegister := by
  refine fun x y s => ⟨decodeWord_ldReg x y, ?_⟩
  rw [exec_ldReg]
  exact writeResult_spec x (s.getV y) s

/-- Settles O32: each meaning is a `writeResult` whose bits are the operation on the operands' bits. -/
theorem bitwiseLogic : Obligations.BitwiseLogic := by
  refine fun x y s => ⟨decodeWord_orReg x y, decodeWord_andReg x y, decodeWord_xorReg x y, ?_, ?_, ?_⟩
  · rw [exec_orReg]
    exact writeResult_bits x s fun _ => BitVec.getLsbD_or
  · rw [exec_andReg]
    exact writeResult_bits x s fun _ => BitVec.getLsbD_and
  · rw [exec_xorReg]
    exact writeResult_bits x s fun _ => BitVec.getLsbD_xor

end Sys2Proof.Machine
end

section
/-! The index register and the memory transfers (42_index_memory.md R160 to R167): the words that decode to them, their
meanings, what a store at `I` and a load from `I` do, each said once, and the obligations about them. -/

namespace Sys2Proof

/-! ## Decoding (R74, R78) -/

theorem decodeWord_ldI (nnn : Addr) : decodeWord (0xA#4 ++ nnn) = .ldI nnn := by
  simp [decodeWord]

/-- The opcode F goes to its secondary dispatch, whatever the low byte (R74). -/
theorem decodeWord_opF (x : RegNum) (nn : Byte) :
    decodeWord (0xF#4 ++ x ++ nn) = decodeOpF (0xF#4 ++ x ++ nn) := by
  simp [decodeWord]

theorem decodeWord_addI (x : RegNum) : decodeWord (0xF#4 ++ x ++ 0x1E#8) = .addI x := by
  simp [decodeWord_opF, decodeOpF]

theorem decodeWord_ldFont (x : RegNum) : decodeWord (0xF#4 ++ x ++ 0x29#8) = .ldFont x := by
  simp [decodeWord_opF, decodeOpF]

theorem decodeWord_ldBcd (x : RegNum) : decodeWord (0xF#4 ++ x ++ 0x33#8) = .ldBcd x := by
  simp [decodeWord_opF, decodeOpF]

theorem decodeWord_storeRegs (x : RegNum) : decodeWord (0xF#4 ++ x ++ 0x55#8) = .storeRegs x := by
  simp [decodeWord_opF, decodeOpF]

theorem decodeWord_loadRegs (x : RegNum) : decodeWord (0xF#4 ++ x ++ 0x65#8) = .loadRegs x := by
  simp [decodeWord_opF, decodeOpF]

end Sys2Proof

namespace Sys2Proof.Machine

/-! ## Addresses and digits as numbers -/

/-- The address a transfer starts at is `I` itself (R160). -/
theorem effAddr_zero (s : State) : effAddr s 0 = s.i.toNat :=
  Nat.mod_eq_of_lt s.i.isLt

/-- The glyphs are five bytes each, from address 0 on (R163). -/
theorem glyphAddr_toNat (b : Byte) : (glyphAddr b).toNat = 5 * (b.toNat % 16) := by
  have hlow : b.toNat % 16 < 16 := Nat.mod_lt _ (by decide)
  rw [glyphAddr, BitVec.toNat_mul, zextAddr_toNat, lowNibble_toNat, BitVec.toNat_ofNat]
  omega

/-- The three digits as numbers (R164). -/
theorem bcdDigits_toNat (b : Byte) :
    (bcdDigits b).map BitVec.toNat = [b.toNat / 100, b.toNat / 10 % 10, b.toNat % 10] := by
  simp [bcdDigits]

/-! ## Writing the index -/

theorem keeps_setI (s : State) (a : Addr) : Keeps [.i] s (s.setI a) := by
  constructor <;> simp

/-- Everything ANNN, FX1E and FX29 do besides their choice of the address: the index written, the program counter past
the instruction (R27), and nothing else moved. -/
theorem setI_advance_spec (s : State) (a : Addr) :
    (s.setI a).advance.i = a ∧ PcMoved 2 s (s.setI a).advance ∧ Keeps [.i] s (s.setI a).advance :=
  ⟨setI_i s a, pcMoved_advance (setI_pc s a), (keeps_setI s a).advance⟩

/-! ## Storing at the index -/

/-- What FX33 and FX55 share: bytes stored from `I` on, and the program counter past the instruction. -/
def State.storeAtI (s : State) (bs : List Byte) : State :=
  (s.setMem (storeBytes s.mem (effAddr s 0) bs)).advance

@[simp] theorem storeAtI_i (s : State) (bs : List Byte) : (s.storeAtI bs).i = s.i := rfl

@[simp] theorem storeAtI_mem (s : State) (bs : List Byte) :
    (s.storeAtI bs).mem = storeBytes s.mem (effAddr s 0) bs := rfl

theorem pcMoved_storeAtI (s : State) (bs : List Byte) : PcMoved 2 s (s.storeAtI bs) :=
  pcMoved_advance (setMem_pc s _)

/-- A store at `I` writes the bytes that the list reaches, and no other part of the state (R57). -/
theorem keeps_storeAtI (s : State) (bs : List Byte) : Keeps (byteParts s bs.length) s (s.storeAtI bs) :=
  (keeps_storeBytes s bs).advance

/-- Byte `k` of the list is stored at `I + k`, the address mod 4096 (R53). -/
theorem memRead_storeAtI (s : State) {bs : List Byte} (hlen : bs.length ≤ 4096) {k : Nat} (hk : k < bs.length) :
    memRead (s.storeAtI bs).mem (s.i.toNat + k) = bs[k] := by
  rw [storeAtI_mem, effAddr_zero]
  exact memRead_storeBytes_at bs s.mem s.i.toNat k hlen hk

/-- The bytes that FX33 stores, as numbers (R164). -/
theorem memRead_storeAtI_bcdDigits (s : State) (b : Byte) {k : Nat} (hk : k < 3) :
    (memRead (s.storeAtI (bcdDigits b)).mem (s.i.toNat + k)).toNat =
      [b.toNat / 100, b.toNat / 10 % 10, b.toNat % 10][k] := by
  have hlen : (bcdDigits b).length = 3 := rfl
  rw [memRead_storeAtI s (by omega) (by omega)]
  simp only [← bcdDigits_toNat, List.getElem_map]

/-- The bytes that FX55 stores, one for each register up to `V[X]` (R165). -/
theorem memRead_storeAtI_regs (s : State) {x r : RegNum} (hr : r.toNat ≤ x.toNat) :
    memRead (s.storeAtI ((regsUpTo x).map s.getV)).mem (s.i.toNat + r.toNat) = s.getV r := by
  have hx := x.isLt
  have hlen : ((regsUpTo x).map s.getV).length = x.toNat + 1 := by rw [List.length_map, regsUpTo_length]
  rw [memRead_storeAtI s (by omega) (by omega), List.getElem_map, regsUpTo_getElem, BitVec.ofNat_toNat,
    BitVec.setWidth_eq]

/-! ## Loading from the index -/

/-- What FX65 leaves: the registers up to `V[X]` loaded from `I` on, and the program counter past the instruction. -/
def State.loadFromI (s : State) (x : RegNum) : State :=
  ((regsUpTo x).foldl (fun t k => t.setV k (memRead t.mem (effAddr t k.toNat))) s).advance

/-- A load from `I` is a new register file and a move of the program counter. -/
theorem loadFromI_eq (s : State) (x : RegNum) : s.loadFromI x = { s with v := (s.loadFromI x).v }.advance :=
  congrArg State.advance (loadFold (regsUpTo x) s).2

/-- Each register up to `V[X]` gets its byte, and the others keep theirs (R166). -/
theorem getV_loadFromI (s : State) (x r : RegNum) :
    (s.loadFromI x).getV r = if r ∈ regsUpTo x then memRead s.mem (s.i.toNat + r.toNat) else s.getV r := by
  rw [← memRead_mod]
  exact (loadFold (regsUpTo x) s).1 r

theorem getV_loadFromI_of_le (s : State) {x r : RegNum} (hr : r.toNat ≤ x.toNat) :
    (s.loadFromI x).getV r = memRead s.mem (s.i.toNat + r.toNat) := by
  rw [getV_loadFromI, if_pos (mem_regsUpTo.mpr hr)]

theorem pcMoved_loadFromI (s : State) (x : RegNum) : PcMoved 2 s (s.loadFromI x) := by
  rw [loadFromI_eq]
  exact pcMoved_advance rfl

theorem keeps_loadFromI (s : State) (x : RegNum) : Keeps (regParts x) s (s.loadFromI x) := by
  have hreg : ∀ r, .reg r ∉ regParts x → (s.loadFromI x).getV r = s.getV r := fun r hr => by
    rw [getV_loadFromI, if_neg fun h => hr (List.mem_map_of_mem h)]
  constructor
  case reg => exact hreg
  all_goals
    intros
    rw [loadFromI_eq]
    rfl

/-! ## Meanings -/

/-- The meaning of ANNN (R161). -/
theorem exec_ldI (nnn : Addr) (s : State) : exec (.ldI nnn) s = .next (s.setI nnn).advance := rfl

/-- The meaning of FX1E (R162). -/
theorem exec_addI (x : RegNum) (s : State) :
    exec (.addI x) s = .next (s.setI (s.i + zextAddr (s.getV x))).advance := rfl

/-- The meaning of FX29 (R163). -/
theorem exec_ldFont (x : RegNum) (s : State) :
    exec (.ldFont x) s = .next (s.setI (glyphAddr (s.getV x))).advance := rfl

/-- The meaning of FX33 (R164). -/
theorem exec_ldBcd (x : RegNum) (s : State) :
    exec (.ldBcd x) s = .next (s.storeAtI (bcdDigits (s.getV x))) := rfl

/-- The meaning of FX55 (R165). -/
theorem exec_storeRegs (x : RegNum) (s : State) :
    exec (.storeRegs x) s = .next (s.storeAtI ((regsUpTo x).map s.getV)) := rfl

/-- The meaning of FX65 (R166). -/
theorem exec_loadRegs (x : RegNum) (s : State) : exec (.loadRegs x) s = .next (s.loadFromI x) := rfl

/-! ## The obligations -/

/-- Settles O39: the meaning writes NNN to the index and advances. -/
theorem setIndex : Obligations.SetIndex :=
  fun nnn s => ⟨decodeWord_ldI nnn, _, exec_ldI nnn s, setI_advance_spec s nnn⟩

/-- Settles O40: the 12-bit sum of the index and the widened `V[X]` is the sum on numbers, mod 4096, and the frame is
the index alone. -/
theorem addToIndex : Obligations.AddToIndex := by
  refine fun x s => ⟨decodeWord_addI x, _, exec_addI x s, ?_⟩
  obtain ⟨hi, hpc, hkeeps⟩ := setI_advance_spec s (s.i + zextAddr (s.getV x))
  exact ⟨by rw [hi, BitVec.toNat_add, zextAddr_toNat], hpc, hkeeps⟩

/-- Settles O41: the glyph's address is below 80, so the 12-bit product is the product on numbers. -/
theorem fontGlyphAddress : Obligations.FontGlyphAddress := by
  refine fun x s => ⟨decodeWord_ldFont x, _, exec_ldFont x s, ?_⟩
  obtain ⟨hi, hpc, hkeeps⟩ := setI_advance_spec s (glyphAddr (s.getV x))
  exact ⟨by rw [hi, glyphAddr_toNat], hpc, hkeeps⟩

/-- Settles O42: a store at `I` of the list of the three digits. -/
theorem bcdStoresDigits : Obligations.BcdStoresDigits := by
  refine fun x s => ⟨decodeWord_ldBcd x, _, exec_ldBcd x s, pcMoved_storeAtI s _,
    keeps_storeAtI s (bcdDigits (s.getV x)), ?_, ?_, ?_⟩
  · exact memRead_storeAtI_bcdDigits s (s.getV x) (k := 0) (by decide)
  · exact memRead_storeAtI_bcdDigits s (s.getV x) (k := 1) (by decide)
  · exact memRead_storeAtI_bcdDigits s (s.getV x) (k := 2) (by decide)

/-- Settles O43: a store at `I` of the registers up to `V[X]`, which is `X + 1` bytes. -/
theorem storeRegisters : Obligations.StoreRegisters := by
  refine fun x s => ⟨decodeWord_storeRegs x, _, exec_storeRegs x s, pcMoved_storeAtI s _, ?_,
    fun _ hr => memRead_storeAtI_regs s hr⟩
  simpa only [List.length_map, regsUpTo_length] using keeps_storeAtI s ((regsUpTo x).map s.getV)

/-- Settles O44: a load from `I` of the registers up to `V[X]`. -/
theorem loadRegisters : Obligations.LoadRegisters :=
  fun x s => ⟨decodeWord_loadRegs x, _, exec_loadRegs x s, pcMoved_loadFromI s x, keeps_loadFromI s x,
    fun _ hr => getV_loadFromI_of_le s hr⟩

/-- Settles O45: register by register, the byte FX65 loads is the byte FX55 stored. -/
theorem storeLoadRoundTrip : Obligations.StoreLoadRoundTrip := by
  refine fun x s => ⟨_, exec_storeRegs x s, fun u hi hbytes => ⟨_, exec_loadRegs x u, fun r hr => ?_⟩⟩
  calc (u.loadFromI x).getV r
      = memRead u.mem (u.i.toNat + r.toNat) := getV_loadFromI_of_le u hr
    _ = memRead (s.storeAtI ((regsUpTo x).map s.getV)).mem (s.i.toNat + r.toNat) := by
        simpa only [hi, storeAtI_i] using hbytes r.toNat hr
    _ = s.getV r := memRead_storeAtI_regs s hr

end Sys2Proof.Machine
end

section
/-! The clear of the display (43_display.md R180): the word that decodes to it, its meaning, and the obligation. -/

namespace Sys2Proof

/-- 00E0 is one of the two whole words that the opcode 0 singles out (R75). -/
theorem decodeWord_cls : decodeWord 0x00E0#16 = .cls := rfl

end Sys2Proof

namespace Sys2Proof.Machine

/-- The meaning of 00E0 (R180). -/
theorem exec_cls (s : State) : exec .cls s = .next (s.setDisp clearDisplay).advance := rfl

theorem keeps_setDisp (s : State) (d : Display) : Keeps [.disp] s (s.setDisp d) := by
  constructor <;> simp

/-- Settles O47: the meaning replaces the display by the clear one, which has no cell at 1, and advances; the frame is
the display alone, so `VF` keeps its value. (The plain name `clearDisplay` is the model's clear display.) -/
theorem clearDisplay_holds : Obligations.ClearDisplay := by
  refine fun s => ⟨decodeWord_cls, _, exec_cls s, pcMoved_advance (setDisp_pc s _), (keeps_setDisp s _).advance,
    fun x _ y _ => ?_⟩
  rw [advance_disp, setDisp_disp, cellAt_clearDisplay]

end Sys2Proof.Machine
end

section
/-! The key tests, the key wait and the timer moves (44_keys_timers.md R200 to R205): the words that decode to them, their
meanings, and the obligations about them. -/

namespace Sys2Proof

/-! ## Decoding (R74, R77, R78) -/

/-- The opcode E goes to its secondary dispatch, whatever the low byte (R74). -/
theorem decodeWord_opE (x : RegNum) (nn : Byte) :
    decodeWord (0xE#4 ++ x ++ nn) = decodeOpE (0xE#4 ++ x ++ nn) := by
  simp [decodeWord]

theorem decodeWord_skp (x : RegNum) : decodeWord (0xE#4 ++ x ++ 0x9E#8) = .skp x := by
  simp [decodeWord_opE, decodeOpE]

theorem decodeWord_sknp (x : RegNum) : decodeWord (0xE#4 ++ x ++ 0xA1#8) = .sknp x := by
  simp [decodeWord_opE, decodeOpE]

theorem decodeWord_ldFromDt (x : RegNum) : decodeWord (0xF#4 ++ x ++ 0x07#8) = .ldFromDt x := by
  simp [decodeWord_opF, decodeOpF]

theorem decodeWord_ldKey (x : RegNum) : decodeWord (0xF#4 ++ x ++ 0x0A#8) = .ldKey x := by
  simp [decodeWord_opF, decodeOpF]

theorem decodeWord_ldDt (x : RegNum) : decodeWord (0xF#4 ++ x ++ 0x15#8) = .ldDt x := by
  simp [decodeWord_opF, decodeOpF]

theorem decodeWord_ldSt (x : RegNum) : decodeWord (0xF#4 ++ x ++ 0x18#8) = .ldSt x := by
  simp [decodeWord_opF, decodeOpF]

end Sys2Proof

namespace Sys2Proof.Machine

/-! ## Keys as numbers -/

/-- The key that a byte names is its low nibble (R200). -/
theorem keyIndex_eq_mod (b : Byte) : keyIndex b = b.toNat % 16 :=
  lowNibble_toNat b

/-- The number of the lowest key fits in a register (R203). -/
theorem ofNat_lowestKey_toNat {keys : Word} (h : keys ≠ 0#16) :
    (BitVec.ofNat 8 (lowestKey keys)).toNat = lowestKey keys := by
  obtain ⟨hlt, -, -⟩ := lowestKey_spec h
  rw [BitVec.toNat_ofNat, Nat.mod_eq_of_lt (by omega)]

/-! ## Meanings -/

/-- The meaning of EX9E (R200). -/
theorem exec_skp (x : RegNum) (s : State) :
    exec (.skp x) s = .next (s.skipIf (s.keys.getLsbD ((s.getV x).toNat % 16))) := by
  rw [← keyIndex_eq_mod]
  rfl

/-- The meaning of EXA1 (R201). -/
theorem exec_sknp (x : RegNum) (s : State) :
    exec (.sknp x) s = .next (s.skipIf (!s.keys.getLsbD ((s.getV x).toNat % 16))) := by
  rw [← keyIndex_eq_mod]
  rfl

/-- The meaning of FX07 (R202). -/
theorem exec_ldFromDt (x : RegNum) (s : State) : exec (.ldFromDt x) s = writeResult x s.dt s := rfl

/-- The meaning of FX0A with no key held (R203, R206). -/
theorem exec_ldKey_of_no_key (x : RegNum) {s : State} (h : s.keys = 0#16) : exec (.ldKey x) s = .next s :=
  congrArg Host.Outcome.next (if_pos h)

/-- The meaning of FX0A with a key held (R203). -/
theorem exec_ldKey_of_key (x : RegNum) {s : State} (h : s.keys ≠ 0#16) :
    exec (.ldKey x) s = writeResult x (BitVec.ofNat 8 (lowestKey s.keys)) s :=
  congrArg Host.Outcome.next (if_neg h)

/-- The meaning of FX15 (R204). -/
theorem exec_ldDt (x : RegNum) (s : State) : exec (.ldDt x) s = .next (s.setDt (s.getV x)).advance := rfl

/-- The meaning of FX18 (R205). -/
theorem exec_ldSt (x : RegNum) (s : State) : exec (.ldSt x) s = .next (s.setSt (s.getV x)).advance := rfl

/-! ## Moves of the program counter and frames -/

/-- A skip on the negation of a condition (R106). -/
theorem pcMoved_skipIf_not (s : State) (c : Bool) :
    if c then PcMoved 2 s (s.skipIf !c) else PcMoved 4 s (s.skipIf !c) := by
  cases c
  · exact pcMoved_skip rfl
  · exact pcMoved_advance rfl

theorem keeps_setDt (s : State) (b : Byte) : Keeps [.dt] s (s.setDt b) := by
  constructor <;> simp

theorem keeps_setSt (s : State) (b : Byte) : Keeps [.st] s (s.setSt b) := by
  constructor <;> simp

/-! ## The obligations -/

/-- Settles O53: with no key held the meaning is the identity; else it is a `writeResult` of the lowest key, whose number
is below 16 and so is kept whole in the register. -/
theorem waitForKey : Obligations.WaitForKey := by
  refine fun x s => ⟨decodeWord_ldKey x, exec_ldKey_of_no_key x, fun hkey => ?_⟩
  obtain ⟨-, hheld, hbelow⟩ := lowestKey_spec hkey
  obtain ⟨t, hnext, hval, hpc, hkeeps⟩ := writeResult_spec x (BitVec.ofNat 8 (lowestKey s.keys)) s
  have hnum : (t.getV x).toNat = lowestKey s.keys := by rw [hval, ofNat_lowestKey_toNat hkey]
  refine ⟨t, (exec_ldKey_of_key x hkey).trans hnext, hpc, hkeeps, ?_⟩
  rw [hnum]
  exact ⟨hheld, hbelow⟩

/-- Settles O52: both meanings are `skipIf`, one on the bit of KEYS that `V[X]` names and one on its negation. -/
theorem skipOnKey : Obligations.SkipOnKey := by
  refine fun x s => ⟨decodeWord_skp x, decodeWord_sknp x, ?_, ?_⟩
  · exact ⟨_, exec_skp x s, keeps_skipIf s _, pcMoved_skipIf s _⟩
  · exact ⟨_, exec_sknp x s, keeps_skipIf s _, pcMoved_skipIf_not s _⟩

/-- Settles O55: FX07 is a `writeResult` of the delay timer, FX15 and FX18 are a write of one timer and an `advance`. -/
theorem timerMoves : Obligations.TimerMoves := by
  refine fun x s => ⟨decodeWord_ldFromDt x, decodeWord_ldDt x, decodeWord_ldSt x, ?_, ?_, ?_⟩
  · rw [exec_ldFromDt]
    exact writeResult_spec x s.dt s
  · exact ⟨_, exec_ldDt x s, setDt_dt s _, pcMoved_advance (setDt_pc s _), (keeps_setDt s _).advance⟩
  · exact ⟨_, exec_ldSt x s, setSt_st s _, pcMoved_advance (setSt_pc s _), (keeps_setSt s _).advance⟩

end Sys2Proof.Machine
end

section
/-! Decoding and encoding are inverse (30_encoding.md R71 to R86): the words of the instructions that no section above
decodes, the fallback words as `wellFormed` checks them, and the round trip in both directions. -/

namespace Sys2Proof

/-! ## The remaining words (R74 to R76) -/

/-- 00EE is the other whole word that the opcode 0 singles out (R75). -/
theorem decodeWord_ret : decodeWord 0x00EE#16 = .ret := rfl

theorem decodeWord_call (nnn : Addr) : decodeWord (0x2#4 ++ nnn) = .call nnn := by
  simp [decodeWord]

/-- The low nibble is ignored (R79). -/
theorem decodeWord_seReg (x y n : BitVec 4) : decodeWord (0x5#4 ++ x ++ y ++ n) = .seReg x y := by
  simp [decodeWord]

/-- The low nibble is ignored (R79). -/
theorem decodeWord_sneReg (x y n : BitVec 4) : decodeWord (0x9#4 ++ x ++ y ++ n) = .sneReg x y := by
  simp [decodeWord]

theorem decodeWord_addReg (x y : RegNum) : decodeWord (0x8#4 ++ x ++ y ++ 0x4#4) = .addReg x y := by
  simp [decodeWord_op8, decodeOp8]

theorem decodeWord_subReg (x y : RegNum) : decodeWord (0x8#4 ++ x ++ y ++ 0x5#4) = .subReg x y := by
  simp [decodeWord_op8, decodeOp8]

theorem decodeWord_shr (x y : RegNum) : decodeWord (0x8#4 ++ x ++ y ++ 0x6#4) = .shr x y := by
  simp [decodeWord_op8, decodeOp8]

theorem decodeWord_subnReg (x y : RegNum) : decodeWord (0x8#4 ++ x ++ y ++ 0x7#4) = .subnReg x y := by
  simp [decodeWord_op8, decodeOp8]

theorem decodeWord_shl (x y : RegNum) : decodeWord (0x8#4 ++ x ++ y ++ 0xE#4) = .shl x y := by
  simp [decodeWord_op8, decodeOp8]

theorem decodeWord_rnd (x : RegNum) (nn : Byte) : decodeWord (0xC#4 ++ x ++ nn) = .rnd x nn := by
  simp [decodeWord]

theorem decodeWord_drw (x y n : BitVec 4) : decodeWord (0xD#4 ++ x ++ y ++ n) = .drw x y n := by
  simp [decodeWord]

/-! ## The fallback words (R81) -/

/-- The check of `wellFormed` names the three ways a word can select nothing. -/
theorem isFallbackWord_iff (w : Word) :
    isFallbackWord w = true ↔
      (w.toNat / 4096 = 0x8 ∧ w.toNat % 16 ∉ aluSubOpcodes) ∨
      (w.toNat / 4096 = 0xE ∧ w.toNat % 256 ∉ keySubOpcodes) ∨
      (w.toNat / 4096 = 0xF ∧ w.toNat % 256 ∉ miscSubOpcodes) := by
  simp [isFallbackWord, or_assoc]

theorem decodeWord_of_isFallbackWord {w : Word} (h : isFallbackWord w = true) : decodeWord w = .noopFallback w :=
  (decodeWord_eq_noopFallback_iff w).mpr ((isFallbackWord_iff w).mp h)

/-- Settles O1: one decoding lemma for each constructor; the two conditions of `wellFormed` are what the lemmas of 0NNN and
of the fallback ask for. -/
theorem decodeOfEncodeIsIdentity : Obligations.DecodeOfEncodeIsIdentity := by
  intro i hwf
  cases i with
  | cls => exact decodeWord_cls
  | ret => exact decodeWord_ret
  | sys nnn =>
    obtain ⟨hcls, hret⟩ : nnn ≠ 0x0E0#12 ∧ nnn ≠ 0x0EE#12 := by simpa [Instr.wellFormed] using hwf
    exact decodeWord_sys hcls hret
  | jp nnn => exact decodeWord_jp nnn
  | call nnn => exact decodeWord_call nnn
  | seImm x nn => exact decodeWord_seImm x nn
  | sneImm x nn => exact decodeWord_sneImm x nn
  | seReg x y => exact decodeWord_seReg x y _
  | ldImm x nn => exact decodeWord_ldImm x nn
  | addImm x nn => exact decodeWord_addImm x nn
  | ldReg x y => exact decodeWord_ldReg x y
  | orReg x y => exact decodeWord_orReg x y
  | andReg x y => exact decodeWord_andReg x y
  | xorReg x y => exact decodeWord_xorReg x y
  | addReg x y => exact decodeWord_addReg x y
  | subReg x y => exact decodeWord_subReg x y
  | shr x y => exact decodeWord_shr x y
  | subnReg x y => exact decodeWord_subnReg x y
  | shl x y => exact decodeWord_shl x y
  | sneReg x y => exact decodeWord_sneReg x y _
  | ldI nnn => exact decodeWord_ldI nnn
  | jpV0 nnn => exact decodeWord_jpV0 nnn
  | rnd x nn => exact decodeWord_rnd x nn
  | drw x y n => exact decodeWord_drw x y n
  | skp x => exact decodeWord_skp x
  | sknp x => exact decodeWord_sknp x
  | ldFromDt x => exact decodeWord_ldFromDt x
  | ldKey x => exact decodeWord_ldKey x
  | ldDt x => exact decodeWord_ldDt x
  | ldSt x => exact decodeWord_ldSt x
  | addI x => exact decodeWord_addI x
  | ldFont x => exact decodeWord_ldFont x
  | ldBcd x => exact decodeWord_ldBcd x
  | storeRegs x => exact decodeWord_storeRegs x
  | loadRegs x => exact decodeWord_loadRegs x
  | noopFallback raw => exact decodeWord_of_isFallbackWord hwf

/-! ## Every word is the word of what it decodes to (R83) -/

theorem isFallbackWord_of_decodeWord {w : Word} (h : decodeWord w = .noopFallback w) : isFallbackWord w = true :=
  (isFallbackWord_iff w).mpr ((decodeWord_eq_noopFallback_iff w).mp h)

/-- A word of the ADDR format, written with its opcode's value. -/
theorem addr_of_opField {w : Word} {a : BitVec 4} (hop : opField w = a) : a ++ nnnField w = w := by
  rw [← hop, word_eq_addr]

/-- A word of the REG_IMM format, written with its opcode's value. -/
theorem imm_of_opField {w : Word} {a : BitVec 4} (hop : opField w = a) : a ++ xField w ++ nnField w = w := by
  rw [← hop, word_eq_imm]

/-- A word of the REG_SUB format, written with the values of its opcode and its low byte. -/
theorem sub_of_fields {w : Word} {a : BitVec 4} {nn : Byte} (hop : opField w = a)
    (hnn : (nnField w).toNat = nn.toNat) : a ++ xField w ++ nn = w := by
  rw [← BitVec.eq_of_toNat_eq hnn, imm_of_opField hop]

/-- A word of the REG_REG format, written with the values of its opcode and its low nibble. -/
theorem reg_of_fields {w : Word} {a n : BitVec 4} (hop : opField w = a) (hn : (nField w).toNat = n.toNat) :
    a ++ xField w ++ yField w ++ n = w := by
  rw [← hop, ← BitVec.eq_of_toNat_eq hn, word_eq_reg]

/-- A mask written by its nibbles acts on each field apart. -/
theorem reg_and (a x y n a' x' y' n' : BitVec 4) :
    (a ++ x ++ y ++ n : Word) &&& (a' ++ x' ++ y' ++ n') = (a &&& a') ++ (x &&& x') ++ (y &&& y') ++ (n &&& n') := by
  have h : ((a ++ x ++ y ++ n : BitVec (4 + 4 + 4 + 4)) &&& (a' ++ x' ++ y' ++ n')) =
      (a &&& a') ++ (x &&& x') ++ (y &&& y') ++ (n &&& n') := by
    simp only [BitVec.and_append]
  exact h

theorem nibble_and_F (a : BitVec 4) : a &&& 0xF#4 = a := BitVec.and_allOnes

/-- The low nibble cleared, the other fields kept. -/
theorem low_nibble_mask (a x y n : BitVec 4) : (a ++ x ++ y ++ n : Word) &&& 0xFFF0#16 = a ++ x ++ y ++ 0x0#4 := by
  refine (reg_and a x y n 0xF#4 0xF#4 0xF#4 0x0#4).trans ?_
  simp only [nibble_and_F, BitVec.and_zero]

/-- A word that decodes to an instruction the encoder gives that word back for. -/
def RoundTrips (w : Word) : Prop := (decodeWord w).wellFormed = true ∧ encode (decodeWord w) = w

/-- What is left to show of a word: some well-formed instruction is written as it (R83). -/
theorem roundTrips_of_encode {w : Word} {i : Instr} (hwf : i.wellFormed = true) (henc : encode i = w) :
    RoundTrips w := by
  subst henc
  unfold RoundTrips
  rw [decodeOfEncodeIsIdentity i hwf]
  exact ⟨hwf, rfl⟩

/-- The same, when a secondary dispatch answers either the fallback or such an instruction. -/
theorem roundTrips_of_dispatch {w : Word} {i : Instr} (hdec : decodeWord w = i)
    (h : i = .noopFallback w ∨ (i.wellFormed = true ∧ encode i = w)) : RoundTrips w := by
  obtain rfl | ⟨hwf, henc⟩ := h
  · exact roundTrips_of_encode (i := .noopFallback w) (isFallbackWord_of_decodeWord hdec) rfl
  · exact roundTrips_of_encode hwf henc

/-- Opcode 0 (R75): the two whole words apart, what is left is `0NNN` with another NNN. -/
theorem roundTrips_op0 {w : Word} (hop : opField w = 0x0#4) : RoundTrips w := by
  by_cases hcls : w = 0x00E0#16
  · exact roundTrips_of_encode (i := .cls) rfl hcls.symm
  by_cases hret : w = 0x00EE#16
  · exact roundTrips_of_encode (i := .ret) rfl hret.symm
  have hw := addr_of_opField hop
  have hne : nnnField w ≠ 0x0E0#12 ∧ nnnField w ≠ 0x0EE#12 :=
    ⟨fun e => hcls (by rw [← hw, e]; rfl), fun e => hret (by rw [← hw, e]; rfl)⟩
  exact roundTrips_of_encode (i := .sys (nnnField w)) (by simpa [Instr.wellFormed] using hne) hw

/-- Opcode 8 (R76): the low nibble selects a row or leaves the fallback. -/
theorem roundTrips_op8 {w : Word} (hop : opField w = 0x8#4) : RoundTrips w := by
  refine roundTrips_of_dispatch (i := decodeOp8 w) (by simp [decodeWord, hop]) ?_
  unfold decodeOp8
  split
  case h_10 => exact .inl rfl
  all_goals exact .inr ⟨rfl, reg_of_fields hop ‹_›⟩

/-- Opcode E (R77): the low byte selects a row or leaves the fallback. -/
theorem roundTrips_opE {w : Word} (hop : opField w = 0xE#4) : RoundTrips w := by
  refine roundTrips_of_dispatch (i := decodeOpE w) (by simp [decodeWord, hop]) ?_
  unfold decodeOpE
  split
  case h_3 => exact .inl rfl
  all_goals exact .inr ⟨rfl, sub_of_fields hop ‹_›⟩

/-- Opcode F (R78): the low byte selects a row or leaves the fallback. -/
theorem roundTrips_opF {w : Word} (hop : opField w = 0xF#4) : RoundTrips w := by
  refine roundTrips_of_dispatch (i := decodeOpF w) (by simp [decodeWord, hop]) ?_
  unfold decodeOpF
  split
  case h_10 => exact .inl rfl
  all_goals exact .inr ⟨rfl, sub_of_fields hop ‹_›⟩

/-- Every opcode but 5 and 9 keeps all bits of the word (R74, R83). -/
theorem roundTrips_of_opField {w : Word} (h5 : opField w ≠ 0x5#4) (h9 : opField w ≠ 0x9#4) : RoundTrips w := by
  have hcase : ∀ a : BitVec 4, a = 0x0#4 ∨ a = 0x1#4 ∨ a = 0x2#4 ∨ a = 0x3#4 ∨ a = 0x4#4 ∨ a = 0x5#4 ∨ a = 0x6#4 ∨
      a = 0x7#4 ∨ a = 0x8#4 ∨ a = 0x9#4 ∨ a = 0xA#4 ∨ a = 0xB#4 ∨ a = 0xC#4 ∨ a = 0xD#4 ∨ a = 0xE#4 ∨ a = 0xF#4 := by
    decide
  rcases hcase (opField w) with hop | hop | hop | hop | hop | hop | hop | hop | hop | hop | hop | hop | hop | hop |
    hop | hop
  · exact roundTrips_op0 hop
  · exact roundTrips_of_encode (i := .jp (nnnField w)) rfl (addr_of_opField hop)
  · exact roundTrips_of_encode (i := .call (nnnField w)) rfl (addr_of_opField hop)
  · exact roundTrips_of_encode (i := .seImm (xField w) (nnField w)) rfl (imm_of_opField hop)
  · exact roundTrips_of_encode (i := .sneImm (xField w) (nnField w)) rfl (imm_of_opField hop)
  · exact absurd hop h5
  · exact roundTrips_of_encode (i := .ldImm (xField w) (nnField w)) rfl (imm_of_opField hop)
  · exact roundTrips_of_encode (i := .addImm (xField w) (nnField w)) rfl (imm_of_opField hop)
  · exact roundTrips_op8 hop
  · exact absurd hop h9
  · exact roundTrips_of_encode (i := .ldI (nnnField w)) rfl (addr_of_opField hop)
  · exact roundTrips_of_encode (i := .jpV0 (nnnField w)) rfl (addr_of_opField hop)
  · exact roundTrips_of_encode (i := .rnd (xField w) (nnField w)) rfl (imm_of_opField hop)
  · exact roundTrips_of_encode (i := .drw (xField w) (yField w) (nField w)) rfl (reg_of_fields hop rfl)
  · exact roundTrips_opE hop
  · exact roundTrips_opF hop

/-- The opcodes 5 and 9 lose the low nibble and keep the rest (R79). -/
theorem encode_decodeWord_skipReg {w : Word} (h : opField w = 0x5#4 ∨ opField w = 0x9#4) :
    (decodeWord w).wellFormed = true ∧ encode (decodeWord w) = w &&& 0xFFF0#16 := by
  rcases h with hop | hop
  · rw [← reg_of_fields (n := nField w) hop rfl, decodeWord_seReg, low_nibble_mask]
    exact ⟨rfl, rfl⟩
  · rw [← reg_of_fields (n := nField w) hop rfl, decodeWord_sneReg, low_nibble_mask]
    exact ⟨rfl, rfl⟩

/-- Settles O2: every opcode but 5 and 9 round-trips; those two keep all fields but the low nibble. -/
theorem encodeOfDecodeIsWord : Obligations.EncodeOfDecodeIsWord := by
  intro w
  have hop : ∀ a : BitVec 4, w.toNat / 4096 = a.toNat ↔ opField w = a := fun a => by
    rw [← opField_toNat, BitVec.toNat_inj]
  have hskip : w.toNat / 4096 = 5 ∨ w.toNat / 4096 = 9 ↔ opField w = 0x5#4 ∨ opField w = 0x9#4 :=
    or_congr (hop 0x5#4) (hop 0x9#4)
  by_cases h : opField w = 0x5#4 ∨ opField w = 0x9#4
  · rw [if_pos (hskip.mpr h)]
    exact encode_decodeWord_skipReg h
  · rw [if_neg (mt hskip.mp h)]
    exact roundTrips_of_opField (fun e => h (.inl e)) (fun e => h (.inr e))

/-! ## The opcode table -/

theorem word_and_F000 (w : Word) : w &&& 0xF000#16 = opField w ++ 0#12 := by
  conv_lhs => rw [← word_eq_addr w]
  exact Laws.addr_mask _ _

theorem word_and_F00F (w : Word) : w &&& 0xF00F#16 = opField w ++ 0x0#4 ++ 0x0#4 ++ nField w := by
  conv_lhs => rw [← word_eq_reg w]
  refine (reg_and _ _ _ _ 0xF#4 0x0#4 0x0#4 0xF#4).trans ?_
  simp only [nibble_and_F, BitVec.and_zero]

theorem word_and_F0FF (w : Word) : w &&& 0xF0FF#16 = opField w ++ 0#4 ++ nnField w := by
  conv_lhs => rw [← word_eq_imm w]
  exact Laws.sub_mask _ _ _

theorem word_and_FFFF (w : Word) : w &&& 0xFFFF#16 = w := BitVec.and_allOnes

/-- A row that fixes the four high bits. -/
theorem matches_op_iff {w p : Word} (hp : p &&& 0xF000#16 = p) :
    w &&& 0xF000#16 = p ↔ (opField w).toNat = p.toNat / 4096 := by
  rw [← opField_toNat, BitVec.toNat_inj]
  constructor
  · rintro rfl
    rw [word_and_F000, opField_addr]
  · intro hop
    rw [← hp, word_and_F000, word_and_F000, hop]

/-- A row that fixes the four high and the four low bits. -/
theorem matches_op_low_iff {w p : Word} (hp : p &&& 0xF00F#16 = p) :
    w &&& 0xF00F#16 = p ↔ (opField w).toNat = p.toNat / 4096 ∧ (nField w).toNat = p.toNat % 16 := by
  rw [← opField_toNat, ← nField_toNat, BitVec.toNat_inj, BitVec.toNat_inj]
  constructor
  · rintro rfl
    rw [word_and_F00F w, opField_reg, nField_reg]
    exact ⟨rfl, rfl⟩
  · rintro ⟨hop, hn⟩
    rw [← hp, word_and_F00F, word_and_F00F, hop, hn]

/-- A row that fixes the four high bits and the low byte. -/
theorem matches_op_byte_iff {w p : Word} (hp : p &&& 0xF0FF#16 = p) :
    w &&& 0xF0FF#16 = p ↔ (opField w).toNat = p.toNat / 4096 ∧ (nnField w).toNat = p.toNat % 256 := by
  rw [← opField_toNat, ← nnField_toNat, BitVec.toNat_inj, BitVec.toNat_inj]
  constructor
  · rintro rfl
    rw [word_and_F0FF, opField_imm, nnField_imm]
    exact ⟨rfl, rfl⟩
  · rintro ⟨hop, hnn⟩
    rw [← hp, word_and_F0FF, word_and_F0FF, hop, hnn]

/-- A word whose opcode is not 0 is neither of the two whole words of the table. -/
theorem ne_whole_of_opField {w : Word} (hop : (opField w).toNat ≠ 0) : w ≠ 0x00E0#16 ∧ w ≠ 0x00EE#16 := by
  constructor <;> (rintro rfl; exact hop rfl)

/-- The first row of a list that a word matches, as a choice on the list's head. -/
theorem map_find?_cons {α β : Type} (p : α → Bool) (f : α → β) (a : α) (l : List α) :
    ((a :: l).find? p).map f = if p a then some (f a) else (l.find? p).map f := by
  rw [List.find?_cons]
  cases p a <;> rfl

/-! Which row each dispatch answers, in the table's order. -/

theorem decodeOp0_mnemonic (w : Word) : (decodeOp0 w).mnemonic =
    if w = 0x00E0#16 then "00E0" else if w = 0x00EE#16 then "00EE" else "0NNN" := by
  unfold decodeOp0
  split_ifs <;> rfl

theorem decodeOp8_mnemonic (w : Word) : (decodeOp8 w).mnemonic =
    if (nField w).toNat = 0x0 then "8XY0" else if (nField w).toNat = 0x1 then "8XY1"
    else if (nField w).toNat = 0x2 then "8XY2" else if (nField w).toNat = 0x3 then "8XY3"
    else if (nField w).toNat = 0x4 then "8XY4" else if (nField w).toNat = 0x5 then "8XY5"
    else if (nField w).toNat = 0x6 then "8XY6" else if (nField w).toNat = 0x7 then "8XY7"
    else if (nField w).toNat = 0xE then "8XYE" else "no-op_fallback" := by
  unfold decodeOp8
  split <;> simp_all [Instr.mnemonic]

theorem decodeOpE_mnemonic (w : Word) : (decodeOpE w).mnemonic =
    if (nnField w).toNat = 0x9E then "EX9E" else if (nnField w).toNat = 0xA1 then "EXA1" else "no-op_fallback" := by
  unfold decodeOpE
  split <;> simp_all [Instr.mnemonic]

theorem decodeOpF_mnemonic (w : Word) : (decodeOpF w).mnemonic =
    if (nnField w).toNat = 0x07 then "FX07" else if (nnField w).toNat = 0x0A then "FX0A"
    else if (nnField w).toNat = 0x15 then "FX15" else if (nnField w).toNat = 0x18 then "FX18"
    else if (nnField w).toNat = 0x1E then "FX1E" else if (nnField w).toNat = 0x29 then "FX29"
    else if (nnField w).toNat = 0x33 then "FX33" else if (nnField w).toNat = 0x55 then "FX55"
    else if (nnField w).toNat = 0x65 then "FX65" else "no-op_fallback" := by
  unfold decodeOpF
  split <;> simp_all [Instr.mnemonic]

/-- Settles O3: with each row's condition as one on the fields, the table is a choice on the opcode; the opcodes with a
secondary dispatch choose among the same rows in the same order. -/
theorem decoderFollowsOpcodeTable : Obligations.DecoderFollowsOpcodeTable := by
  intro w
  by_cases h0 : (opField w).toNat = 0
  · have hdec : decodeWord w = decodeOp0 w := by simp [decodeWord, h0]
    simp [rowOf, opcodeTable, map_find?_cons, word_and_FFFF, matches_op_iff, h0, hdec, decodeOp0_mnemonic,
      apply_ite some]
  · obtain ⟨hcls, hret⟩ := ne_whole_of_opField h0
    have hlo : 0 < (opField w).toNat := Nat.pos_of_ne_zero h0
    have hhi : (opField w).toNat < 16 := (opField w).isLt
    interval_cases h : (opField w).toNat <;>
      simp [rowOf, opcodeTable, map_find?_cons, word_and_FFFF, matches_op_iff, matches_op_low_iff, matches_op_byte_iff,
        hcls, hret, h, decodeWord, decodeOp8_mnemonic, decodeOpE_mnemonic, decodeOpF_mnemonic, apply_ite some] <;> rfl

/-- Settles O5: each word is decoded by evaluation. -/
theorem specWordsDecode : Obligations.SpecWordsDecode := by
  unfold Obligations.SpecWordsDecode
  decide

end Sys2Proof
end

section
/-! The arithmetic that writes the flag (41_register_alu.md R136 to R143) and the random byte (R141): their meanings as a
`writeResult` on the state the flag write left, what such a pair of writes does, and the obligations about them. -/

namespace Sys2Proof.Machine

/-! ## Meanings -/

/-- The meaning of 8XY4 (R136). -/
theorem exec_addReg (x y : RegNum) (s : State) : exec (.addReg x y) s =
    writeResult x (s.getV x + s.getV y) (s.setFlag (carryFlag (s.getV x) (s.getV y))) := rfl

/-- What 8XY5 and 8XY7 share (R137, R139): the borrow of `V[m] − V[d]` in the flag, then that difference, of the
registers as the flag write left them, in `V[X]`. -/
def subtractInto (x m d : RegNum) (s : State) : Result :=
  let s₁ := s.setFlag (borrowFlag (s.getV m) (s.getV d))
  writeResult x (s₁.getV m - s₁.getV d) s₁

/-- The meaning of 8XY5 (R137). -/
theorem exec_subReg (x y : RegNum) (s : State) : exec (.subReg x y) s = subtractInto x x y s := rfl

/-- The meaning of 8XY7 (R139). -/
theorem exec_subnReg (x y : RegNum) (s : State) : exec (.subnReg x y) s = subtractInto x y x s := rfl

/-- The meaning of 8XY6 does not mention Y (R138). -/
theorem exec_shr (x y : RegNum) (s : State) : exec (.shr x y) s =
    writeResult x ((s.setFlag (lowBitFlag (s.getV x))).getV x >>> 1) (s.setFlag (lowBitFlag (s.getV x))) := rfl

/-- The meaning of 8XYE does not mention Y (R140). -/
theorem exec_shl (x y : RegNum) (s : State) : exec (.shl x y) s =
    writeResult x ((s.setFlag (highBitFlag (s.getV x))).getV x <<< 1) (s.setFlag (highBitFlag (s.getV x))) := rfl

/-- The meaning of CXNN (R141). -/
theorem exec_rnd (x : RegNum) (nn : Byte) (s : State) :
    exec (.rnd x nn) s = writeResult x (Config.rand8 s.draws &&& nn) s.drawn := rfl

/-! ## The flags as numbers -/

theorem carryFlag_toNat (a b : Byte) : (carryFlag a b).toNat = if a.toNat + b.toNat > 255 then 1 else 0 := by
  simp only [carryFlag, flagByte_toNat, decide_eq_true_eq]

theorem borrowFlag_toNat (a b : Byte) : (borrowFlag a b).toNat = if b.toNat > a.toNat then 1 else 0 := by
  simp only [borrowFlag, flagByte_toNat, decide_eq_true_eq]

/-- A difference of bytes, on numbers (R73). -/
theorem byte_sub_toNat (a b : Byte) : (a - b).toNat = (a.toNat + 256 - b.toNat) % 256 := by
  have hb := b.isLt
  rw [BitVec.toNat_sub]
  omega

/-! ## A flag and a result -/

/-- Everything a flag write and a `writeResult` after it do: the result stands in `V[X]`, the flag in `VF` unless X is 15,
and nothing else moved but the program counter (R143). -/
theorem writeResult_setFlag_spec (x : RegNum) (b f : Byte) (s : State) :
    ∃ t, writeResult x b (s.setFlag f) = .next t ∧ PcMoved 2 s t ∧ Keeps [.reg x, .reg vf] s t ∧
      t.getV x = b ∧ (x ≠ vf → t.getV vf = f) := by
  refine ⟨((s.setFlag f).setV x b).advance, rfl, pcMoved_advance rfl, (keeps_setFlag_setV s x f b).advance,
    getV_setV_self _ x b, fun hx => ?_⟩
  rw [advance_getV, getV_setV_ne _ b (Ne.symm hx), getV_setFlag, if_pos rfl]

/-- Everything `subtractInto` does, on numbers: an operand that is `VF` counts as the borrow. -/
theorem subtractInto_spec (x m d : RegNum) (s : State) :
    let f := if (s.getV d).toNat > (s.getV m).toNat then 1 else 0
    ∃ t, subtractInto x m d s = .next t ∧ PcMoved 2 s t ∧ Keeps [.reg x, .reg vf] s t ∧
      (x ≠ vf → (t.getV vf).toNat = f) ∧
      (t.getV x).toNat =
        ((if m = vf then f else (s.getV m).toNat) + 256 - if d = vf then f else (s.getV d).toNat) % 256 := by
  obtain ⟨t, hnext, hpc, hkeeps, hval, hvf⟩ := writeResult_setFlag_spec x
    ((s.setFlag (borrowFlag (s.getV m) (s.getV d))).getV m - (s.setFlag (borrowFlag (s.getV m) (s.getV d))).getV d)
    (borrowFlag (s.getV m) (s.getV d)) s
  refine ⟨t, hnext, hpc, hkeeps, fun hx => by rw [hvf hx, borrowFlag_toNat], ?_⟩
  rw [hval, byte_sub_toNat, getV_setFlag, getV_setFlag, apply_ite BitVec.toNat, apply_ite BitVec.toNat,
    borrowFlag_toNat]

/-- A byte drawn and a register written (R141). -/
theorem keeps_drawn_setV (s : State) (x : RegNum) (b : Byte) : Keeps [.reg x, .draws] s (s.drawn.setV x b) := by
  constructor <;> simp +contextual [getV_setV]

/-! ## The obligations -/

/-- Settles O33: the 8-bit sum is the sum on numbers, mod 256, and the carry stays in `VF` when the sum goes to another
register. -/
theorem addWithCarry : Obligations.AddWithCarry := by
  refine fun x y s => ⟨decodeWord_addReg x y, ?_⟩
  rw [exec_addReg]
  obtain ⟨t, hnext, hpc, hkeeps, hval, hvf⟩ :=
    writeResult_setFlag_spec x (s.getV x + s.getV y) (carryFlag (s.getV x) (s.getV y)) s
  exact ⟨t, hnext, hpc, hkeeps, by rw [hval, BitVec.toNat_add], fun hx => by rw [hvf hx, carryFlag_toNat]⟩

/-- Settles O34: `subtractInto` with `V[X]` as the minuend, in the four cases of X and Y. -/
theorem subtractWithBorrow : Obligations.SubtractWithBorrow := by
  refine fun x y s => ⟨decodeWord_subReg x y, ?_⟩
  rw [exec_subReg]
  obtain ⟨t, hnext, hpc, hkeeps, hvf, hval⟩ := subtractInto_spec x x y s
  refine ⟨t, hnext, hpc, hkeeps, hvf, fun hx hy => ?_, fun hx hy => ?_, fun hx hy => ?_, fun hx hy => ?_⟩
  · rwa [if_neg hx, if_neg hy] at hval
  · rwa [if_neg hx, if_pos hy] at hval
  · rw [if_pos hx, if_neg hy] at hval
    rw [← hval, hx]
  · rw [if_pos hx, if_pos hy, Nat.add_sub_cancel_left, hx] at hval
    exact BitVec.eq_of_toNat_eq hval

/-- Settles O35: `subtractInto` with `V[Y]` as the minuend, in the four cases of X and Y. -/
theorem reverseSubtractWithBorrow : Obligations.ReverseSubtractWithBorrow := by
  refine fun x y s => ⟨decodeWord_subnReg x y, ?_⟩
  rw [exec_subnReg]
  obtain ⟨t, hnext, hpc, hkeeps, hvf, hval⟩ := subtractInto_spec x y x s
  refine ⟨t, hnext, hpc, hkeeps, hvf, fun hx hy => ?_, fun hx hy => ?_, fun hx hy => ?_, fun hx hy => ?_⟩
  · rwa [if_neg hx, if_neg hy] at hval
  · rwa [if_neg hx, if_pos hy] at hval
  · rw [if_pos hx, if_neg hy] at hval
    rw [← hval, hx]
  · rw [if_pos hx, if_pos hy, Nat.add_sub_cancel_left, hx] at hval
    exact BitVec.eq_of_toNat_eq hval

/-- Settles O36: the shift reads `V[X]` after the flag write, so with X = 15 it halves the bit itself. -/
theorem shiftRightByOne : Obligations.ShiftRightByOne := by
  refine fun x y s => ⟨decodeWord_shr x y, ?_⟩
  rw [exec_shr]
  obtain ⟨t, hnext, hpc, hkeeps, hval, hvf⟩ := writeResult_setFlag_spec x
    ((s.setFlag (lowBitFlag (s.getV x))).getV x >>> 1) (lowBitFlag (s.getV x)) s
  refine ⟨t, hnext, hpc, hkeeps, fun hx => ⟨?_, by rw [hvf hx, lowBitFlag_toNat]⟩, fun hx => ?_⟩
  · rw [hval, getV_setFlag, if_neg hx, BitVec.toNat_ushiftRight, Nat.shiftRight_one]
  · rw [getV_setFlag, if_pos hx, hx] at hval
    apply BitVec.eq_of_toNat_eq
    rw [hval, BitVec.toNat_ushiftRight, Nat.shiftRight_one, lowBitFlag_toNat, BitVec.toNat_ofNat]
    omega

/-- Settles O37: the shift reads `V[X]` after the flag write, so with X = 15 it doubles the bit itself. -/
theorem shiftLeftByOne : Obligations.ShiftLeftByOne := by
  refine fun x y s => ⟨decodeWord_shl x y, ?_⟩
  rw [exec_shl]
  obtain ⟨t, hnext, hpc, hkeeps, hval, hvf⟩ := writeResult_setFlag_spec x
    ((s.setFlag (highBitFlag (s.getV x))).getV x <<< 1) (highBitFlag (s.getV x)) s
  refine ⟨t, hnext, hpc, hkeeps, fun hx => ⟨?_, by rw [hvf hx, highBitFlag_toNat]⟩, fun hx => ?_⟩
  · rw [hval, getV_setFlag, if_neg hx, BitVec.toNat_shiftLeft, Nat.shiftLeft_eq, pow_one, Nat.mul_comm]
  · have hbyte := (s.getV x).isLt
    rw [getV_setFlag, if_pos hx, hx] at hval
    rw [hval, BitVec.toNat_shiftLeft, Nat.shiftLeft_eq, ← hx, highBitFlag_toNat]
    omega

/-- Settles O38: the draw is counted first and the masked byte is written over it; the bits are those of AND. -/
theorem randomAndMask : Obligations.RandomAndMask := by
  refine fun x nn s => ⟨decodeWord_rnd x nn, ?_⟩
  refine ⟨_, exec_rnd x nn s, pcMoved_advance rfl, (keeps_drawn_setV s x _).advance, rfl, fun k => ?_⟩
  rw [advance_getV, getV_setV_self, BitVec.getLsbD_and]

end Sys2Proof.Machine
end

section
/-! Calls and returns (40_control_flow.md R102, R104, 60_exceptions.md R220 to R225) and the skips on two registers (R109,
R110): their meanings and the obligations about one instruction of them. -/

namespace Sys2Proof.Machine

/-! ## Meanings -/

/-- The meaning of 2NNN: the stack has always room (R104, D10). -/
theorem exec_call (nnn : Addr) (s : State) :
    exec (.call nnn) s = .next ((s.setStack (s.pc :: s.stack)).setPc nnn) := rfl

/-- The meaning of 00EE on an empty stack (R220, R221). -/
theorem exec_ret_of_nil {s : State} (h : s.stack = []) :
    exec .ret s = .next (s.setHalted (.faulted (.stackUnderflow s.pc))) := by
  obtain ⟨-, hret⟩ | ⟨a, rest, hcons, -⟩ := returnSubroutine_cases s
  · exact hret
  · simp [h] at hcons

/-- The meaning of 00EE with an entry on the stack (R102). -/
theorem exec_ret_of_cons {s : State} {a : Addr} {rest : List Addr} (h : s.stack = a :: rest) :
    exec .ret s = .next ((s.setStack rest).setPc (a + 2#12)) := by
  obtain ⟨hnil, -⟩ | ⟨b, rest', hcons, hret⟩ := returnSubroutine_cases s
  · simp [h] at hnil
  · obtain ⟨rfl, rfl⟩ : b = a ∧ rest' = rest := by simpa [h, eq_comm] using hcons
    exact hret

/-- The meaning of 5XY0 (R109). -/
theorem exec_seReg (x y : RegNum) (s : State) :
    exec (.seReg x y) s = .next (s.skipIf (s.getV x == s.getV y)) := rfl

/-- The meaning of 9XY0 (R110). -/
theorem exec_sneReg (x y : RegNum) (s : State) :
    exec (.sneReg x y) s = .next (s.skipIf (s.getV x != s.getV y)) := rfl

/-! ## Frames -/

theorem keeps_setStack (s : State) (k : List Addr) : Keeps [.stack] s (s.setStack k) := by
  constructor <;> simp

theorem keeps_setHalted (s : State) (h : Halted) : Keeps [.halted] s (s.setHalted h) := by
  constructor <;> simp

/-- The address two past another (R27). -/
theorem add_two_toNat (a : Addr) : (a + 2#12).toNat = (a.toNat + 2) % 4096 :=
  BitVec.toNat_add a 2#12

/-! ## The obligations -/

/-- Settles O21: the meaning writes the stack and the program counter. -/
theorem callPushesOwnAddress : Obligations.CallPushesOwnAddress :=
  fun nnn s => ⟨decodeWord_call nnn, _, exec_call nnn s, rfl, rfl, (keeps_setStack s _).setPc nnn⟩

/-- Settles O22: the entry on top is the call's address, and the program counter ends two past it. -/
theorem returnResumesAfterCall : Obligations.ReturnResumesAfterCall :=
  fun s a _ h => ⟨decodeWord_ret, _, exec_ret_of_cons h, rfl, add_two_toNat a, (keeps_setStack s _).setPc _⟩

/-- Settles O24: the two cases of a call are the two sides of the bound. -/
theorem boundedStackOverflows : Obligations.BoundedStackOverflows := by
  intro n nnn s
  obtain ⟨hfull, hcall⟩ | ⟨hroom, hcall⟩ := callSubroutine_cases (some n) nnn s
  · have hlen : ¬ s.stack.length < n := by simpa [stackFull] using hfull
    refine ⟨_, hcall, ?_⟩
    rw [if_neg hlen]
    exact ⟨rfl, rfl, keeps_setHalted s _⟩
  · have hlen : s.stack.length < n := by simpa [stackFull] using hroom
    refine ⟨_, hcall, ?_⟩
    rw [if_pos hlen]
    exact ⟨rfl, rfl, (keeps_setStack s _).setPc nnn⟩

/-- Settles O28: both meanings are `skipIf`, one on the equality of the two registers and one on its negation. -/
theorem skipOnRegisters : Obligations.SkipOnRegisters := by
  refine fun x y n s => ⟨decodeWord_seReg x y n, decodeWord_sneReg x y n, ?_, ?_⟩
  · exact ⟨_, exec_seReg x y s, pcMoved_skipIf_beq s (s.getV x) (s.getV y), keeps_skipIf s _⟩
  · exact ⟨_, exec_sneReg x y s, pcMoved_skipIf_bne s (s.getV x) (s.getV y), keeps_skipIf s _⟩

end Sys2Proof.Machine
end

section
/-! What every instruction does, said once: it answers a next state, leaves all but the parts listed here unchanged, and
keeps memory canonical. From it, who writes each kind of state (10_state.md R23 to R39, 20_memory.md R57). -/

namespace Sys2Proof.Machine

/-! ## The parts an instruction writes -/

/-- The parts, the program counter apart, that an instruction may write on the state `s`. -/
def writtenParts (s : State) : Instr → List Part
  | .cls => [.disp]
  | .ret => if s.stack = [] then [.halted] else [.stack]
  | .call _ => [.stack]
  | .ldImm x _ | .addImm x _ | .ldReg x _ | .orReg x _ | .andReg x _ | .xorReg x _ | .ldFromDt x => [.reg x]
  | .addReg x _ | .subReg x _ | .shr x _ | .subnReg x _ | .shl x _ => [.reg x, .reg vf]
  | .rnd x _ => [.reg x, .draws]
  | .drw _ _ _ => [.disp, .reg vf]
  | .ldKey x => if s.keys = 0#16 then [] else [.reg x]
  | .ldDt _ => [.dt]
  | .ldSt _ => [.st]
  | .ldI _ | .addI _ | .ldFont _ => [.i]
  | .ldBcd _ => byteParts s 3
  | .storeRegs x => byteParts s (x.toNat + 1)
  | .loadRegs x => regParts x
  | .sys _ | .jp _ | .seImm _ _ | .sneImm _ _ | .seReg _ _ | .sneReg _ _ | .jpV0 _ | .skp _ | .sknp _
  | .noopFallback _ => []

/-- What every answer of an instruction satisfies: its frame, and memory kept canonical. -/
structure Effect (ws : List Part) (s t : State) : Prop where
  keeps : Keeps ws s t
  wf : s.mem.wf → t.mem.wf

/-- An answer that leaves the list of memory cells alone has only its frame to show. -/
theorem Effect.of_mem_eq {ws : List Part} {s t : State} (hmem : t.mem = s.mem) (hkeeps : Keeps ws s t) :
    Effect ws s t := ⟨hkeeps, fun h => hmem ▸ h⟩

theorem effect_skipIf (s : State) (c : Bool) : Effect [] s (s.skipIf c) :=
  .of_mem_eq (skipIf_mem s c) (keeps_skipIf s c)

theorem effect_setV (s : State) (x : RegNum) (b : Byte) : Effect [.reg x] s (s.setV x b).advance :=
  .of_mem_eq rfl (keeps_setV s x b).advance

theorem effect_setFlag_setV (s : State) (x : RegNum) (f b : Byte) :
    Effect [.reg x, .reg vf] s ((s.setFlag f).setV x b).advance :=
  .of_mem_eq rfl (keeps_setFlag_setV s x f b).advance

theorem effect_setI (s : State) (a : Addr) : Effect [.i] s (s.setI a).advance :=
  .of_mem_eq rfl (keeps_setI s a).advance

theorem effect_storeAtI (s : State) (bs : List Byte) : Effect (byteParts s bs.length) s (s.storeAtI bs) :=
  ⟨keeps_storeAtI s bs, storeBytes_wf _ bs⟩

/-- A load from `I` reads memory only (R166). -/
theorem loadFromI_mem (s : State) (x : RegNum) : (s.loadFromI x).mem = s.mem := by
  rw [loadFromI_eq]
  rfl

/-- The meaning of DXYN: a sprite under the reading in force, and an `advance` (R181). -/
theorem exec_drw (x y n : BitVec 4) (s : State) :
    exec (.drw x y n) s = .next (drawSprite (drawMode x y) x y n s).advance := rfl

/-- Every instruction on every state answers a next state with its effect (R80, R224). -/
theorem exec_effect (i : Instr) (s : State) : ∃ t, exec i s = .next t ∧ Effect (writtenParts s i) s t := by
  cases i with
  | cls => exact ⟨_, exec_cls s, .of_mem_eq rfl (keeps_setDisp s _).advance⟩
  | ret =>
    cases h : s.stack with
    | nil =>
      refine ⟨_, exec_ret_of_nil h, ?_⟩
      rw [writtenParts, if_pos h]
      exact .of_mem_eq rfl (keeps_setHalted s _)
    | cons a rest =>
      refine ⟨_, exec_ret_of_cons h, ?_⟩
      rw [writtenParts, if_neg (by simp [h])]
      exact .of_mem_eq rfl ((keeps_setStack s rest).setPc _)
  | sys nnn => exact ⟨_, exec_sys nnn s, .of_mem_eq rfl (keeps_advance s)⟩
  | jp nnn => exact ⟨_, exec_jp nnn s, .of_mem_eq rfl (keeps_setPc s nnn)⟩
  | call nnn => exact ⟨_, exec_call nnn s, .of_mem_eq rfl ((keeps_setStack s _).setPc nnn)⟩
  | seImm x nn => exact ⟨_, exec_seImm x nn s, effect_skipIf s _⟩
  | sneImm x nn => exact ⟨_, exec_sneImm x nn s, effect_skipIf s _⟩
  | seReg x y => exact ⟨_, exec_seReg x y s, effect_skipIf s _⟩
  | ldImm x nn => exact ⟨_, exec_ldImm x nn s, effect_setV s x _⟩
  | addImm x nn => exact ⟨_, exec_addImm x nn s, effect_setV s x _⟩
  | ldReg x y => exact ⟨_, exec_ldReg x y s, effect_setV s x _⟩
  | orReg x y => exact ⟨_, exec_orReg x y s, effect_setV s x _⟩
  | andReg x y => exact ⟨_, exec_andReg x y s, effect_setV s x _⟩
  | xorReg x y => exact ⟨_, exec_xorReg x y s, effect_setV s x _⟩
  | addReg x y => exact ⟨_, exec_addReg x y s, effect_setFlag_setV s x _ _⟩
  | subReg x y => exact ⟨_, exec_subReg x y s, effect_setFlag_setV s x _ _⟩
  | shr x y => exact ⟨_, exec_shr x y s, effect_setFlag_setV s x _ _⟩
  | subnReg x y => exact ⟨_, exec_subnReg x y s, effect_setFlag_setV s x _ _⟩
  | shl x y => exact ⟨_, exec_shl x y s, effect_setFlag_setV s x _ _⟩
  | sneReg x y => exact ⟨_, exec_sneReg x y s, effect_skipIf s _⟩
  | ldI nnn => exact ⟨_, exec_ldI nnn s, effect_setI s _⟩
  | jpV0 nnn => exact ⟨_, exec_jpV0 nnn s, .of_mem_eq rfl (keeps_setPc s _)⟩
  | rnd x nn => exact ⟨_, exec_rnd x nn s, .of_mem_eq rfl (keeps_drawn_setV s x _).advance⟩
  | drw x y n =>
    exact ⟨_, exec_drw x y n s, .of_mem_eq (drawSprite_mem_pc _ x y n s).1 (drawSprite_keeps _ x y n s).advance⟩
  | skp x => exact ⟨_, exec_skp x s, effect_skipIf s _⟩
  | sknp x => exact ⟨_, exec_sknp x s, effect_skipIf s _⟩
  | ldFromDt x => exact ⟨_, exec_ldFromDt x s, effect_setV s x _⟩
  | ldKey x =>
    by_cases h : s.keys = 0#16
    · refine ⟨_, exec_ldKey_of_no_key x h, ?_⟩
      rw [writtenParts, if_pos h]
      exact .of_mem_eq rfl (Keeps.refl [] s)
    · refine ⟨_, exec_ldKey_of_key x h, ?_⟩
      rw [writtenParts, if_neg h]
      exact effect_setV s x _
  | ldDt x => exact ⟨_, exec_ldDt x s, .of_mem_eq rfl (keeps_setDt s _).advance⟩
  | ldSt x => exact ⟨_, exec_ldSt x s, .of_mem_eq rfl (keeps_setSt s _).advance⟩
  | addI x => exact ⟨_, exec_addI x s, effect_setI s _⟩
  | ldFont x => exact ⟨_, exec_ldFont x s, effect_setI s _⟩
  | ldBcd x => exact ⟨_, exec_ldBcd x s, effect_storeAtI s (bcdDigits (s.getV x))⟩
  | storeRegs x =>
    refine ⟨_, exec_storeRegs x s, ?_⟩
    rw [writtenParts, ← regsUpTo_length, ← List.length_map (f := s.getV)]
    exact effect_storeAtI s _
  | loadRegs x => exact ⟨_, exec_loadRegs x s, .of_mem_eq (loadFromI_mem s x) (keeps_loadFromI s x)⟩
  | noopFallback raw => exact ⟨_, exec_noopFallback raw s, .of_mem_eq rfl (keeps_advance s)⟩

/-- An instruction has one answer. -/
theorem next_unique {r : Result} {t u : State} (ht : r = .next t) (hu : r = .next u) : u = t :=
  Host.Outcome.next.inj (hu.symm.trans ht)

/-- The frame of an instruction. -/
theorem exec_keeps {i : Instr} {s t : State} (h : exec i s = .next t) : Keeps (writtenParts s i) s t := by
  obtain ⟨u, hu, heffect⟩ := exec_effect i s
  exact next_unique h hu ▸ heffect.keeps

theorem exec_mem_wf {i : Instr} {s t : State} (h : exec i s = .next t) (hwf : s.mem.wf) : t.mem.wf := by
  obtain ⟨u, hu, heffect⟩ := exec_effect i s
  exact next_unique h hu ▸ heffect.wf hwf

/-! ## Which instructions list each part -/

theorem mem_byteParts {s : State} {n : Nat} {p : Part} : p ∈ byteParts s n ↔ ∃ k < n, .byte (effAddr s k) = p := by
  simp [byteParts]

theorem mem_regParts {x : RegNum} {p : Part} : p ∈ regParts x ↔ ∃ r ∈ regsUpTo x, .reg r = p := by
  simp [regParts]

/-- Whether `i` is one of the instructions that the spec lets write a part of the state: R23 for a register, R30 to R35
for the other registers and the display, R57 and R160 for a byte of memory, R39 for `HALTED`. -/
def MayWrite (s : State) (i : Instr) : Part → Prop
  | .reg r => r ∈ vWrites i
  | .i => (∃ nnn, i = .ldI nnn) ∨ (∃ x, i = .addI x) ∨ (∃ x, i = .ldFont x)
  | .stack => (∃ nnn, i = .call nnn) ∨ i = .ret
  | .dt => ∃ x, i = .ldDt x
  | .st => ∃ x, i = .ldSt x
  | .keys => False
  | .disp => i = .cls ∨ ∃ x y n, i = .drw x y n
  | .halted => i = .ret ∧ s.stack = []
  | .draws => ∃ x nn, i = .rnd x nn
  | .byte a => (∃ x, i = .ldBcd x ∧ ∃ k ≤ 2, a = effAddr s k) ∨ (∃ x, i = .storeRegs x ∧ ∃ k ≤ x.toNat, a = effAddr s k)

/-- An instruction's frame lists only parts that it may write. -/
theorem mayWrite_of_mem_writtenParts (s : State) (i : Instr) : ∀ p ∈ writtenParts s i, MayWrite s i p := by
  cases i
  case ret => by_cases h : s.stack = [] <;> simp [writtenParts, MayWrite, h]
  case ldKey x => by_cases h : s.keys = 0#16 <;> simp [writtenParts, MayWrite, vWrites, h]
  case ldBcd x =>
    rintro p hp
    obtain ⟨k, hk, rfl⟩ := mem_byteParts.mp hp
    exact .inl ⟨x, rfl, k, Nat.le_of_lt_succ hk, rfl⟩
  case storeRegs x =>
    rintro p hp
    obtain ⟨k, hk, rfl⟩ := mem_byteParts.mp hp
    exact .inr ⟨x, rfl, k, Nat.le_of_lt_succ hk, rfl⟩
  case loadRegs x =>
    rintro p hp
    obtain ⟨r, hr, rfl⟩ := mem_regParts.mp hp
    exact hr
  all_goals simp [writtenParts, MayWrite, vWrites]

/-! ## The obligations on the writers -/

/-- Settles O13: `exec_effect` answers for every instruction, and its frame lists `HALTED` only then. -/
theorem onlyReturnFaults : Obligations.OnlyReturnFaults := by
  intro i s
  obtain ⟨t, hexec, heffect⟩ := exec_effect i s
  exact ⟨t, hexec, fun hne => mayWrite_of_mem_writtenParts s i _ (Not.imp_symm heffect.keeps.halted hne)⟩

/-- Settles O14: the frame of an instruction lists no register but those R23 gives it. -/
theorem generalRegisterWriters : Obligations.GeneralRegisterWriters := by
  refine ⟨fun i s t h => ⟨fun r hr => ?_, ?_⟩, fun font s r => ?_⟩
  · exact (exec_keeps h).reg r (mt (mayWrite_of_mem_writtenParts s i _) hr)
  · rintro x rfl hkeys r
    have hkeeps := exec_keeps h
    rw [writtenParts, if_pos hkeys] at hkeeps
    exact hkeeps.reg r List.not_mem_nil
  · rw [resetCore_eq, setDraws_getV, setMem_getV, getV_reset]

/-- Settles O16: part by part, a change means that the frame lists the part. -/
theorem specialStateWriters : Obligations.SpecialStateWriters := by
  intro i s t h
  have hkeeps := exec_keeps h
  refine ⟨fun hne => mayWrite_of_mem_writtenParts s i _ (Not.imp_symm hkeeps.i hne),
    fun hne => mayWrite_of_mem_writtenParts s i _ (Not.imp_symm hkeeps.stack hne),
    fun hne => mayWrite_of_mem_writtenParts s i _ (Not.imp_symm hkeeps.dt hne),
    fun hne => mayWrite_of_mem_writtenParts s i _ (Not.imp_symm hkeeps.st hne),
    hkeeps.keys (mayWrite_of_mem_writtenParts s i _),
    fun a hne => mayWrite_of_mem_writtenParts s i _ (Not.imp_symm (hkeeps.byte a) hne)⟩

/-! ## The program counter -/

/-- Settles O15: constructor by constructor, from the meanings; all but the jumps, the skips and FX0A end in `advance`. -/
theorem programCounterValues : Obligations.ProgramCounterValues := by
  intro i s t h
  cases i with
  | jp nnn => exact next_unique h (exec_jp nnn s) ▸ rfl
  | call nnn => exact next_unique h (exec_call nnn s) ▸ rfl
  | jpV0 nnn => exact next_unique h (exec_jpV0 nnn s) ▸ zextAddr_add_toNat (s.getV 0#4) nnn
  | ret =>
    cases hstack : s.stack with
    | nil => exact next_unique h (exec_ret_of_nil hstack) ▸ rfl
    | cons a rest => exact next_unique h (exec_ret_of_cons hstack) ▸ add_two_toNat a
  | ldKey x =>
    by_cases hkeys : s.keys = 0#16
    · simp only [hkeys, if_true]
      exact next_unique h (exec_ldKey_of_no_key x hkeys) ▸ rfl
    · simp only [hkeys, if_false]
      exact next_unique h (exec_ldKey_of_key x hkeys) ▸ pcMoved_advance rfl
  | seImm x nn => exact next_unique h (exec_seImm x nn s) ▸ pcMoved_skipIf s _
  | sneImm x nn => exact next_unique h (exec_sneImm x nn s) ▸ pcMoved_skipIf s _
  | seReg x y => exact next_unique h (exec_seReg x y s) ▸ pcMoved_skipIf s _
  | sneReg x y => exact next_unique h (exec_sneReg x y s) ▸ pcMoved_skipIf s _
  | skp x => exact next_unique h (exec_skp x s) ▸ pcMoved_skipIf s _
  | sknp x => exact next_unique h (exec_sknp x s) ▸ pcMoved_skipIf s _
  | drw x y n => exact next_unique h (exec_drw x y n s) ▸ pcMoved_advance (drawSprite_mem_pc _ x y n s).2
  | loadRegs x => exact next_unique h (exec_loadRegs x s) ▸ pcMoved_loadFromI s x
  | _ => exact next_unique h rfl ▸ pcMoved_advance rfl

/-! ## Nested calls (R111) -/

/-- A run in two parts is the second part from where the first one ends. -/
theorem execAll_append {is : List Instr} {s t : State} (h : execAll is s = .next t) (js : List Instr) :
    execAll (is ++ js) s = execAll js t := by
  induction is generalizing s with
  | nil => exact next_unique h rfl ▸ rfl
  | cons i rest ih =>
    obtain ⟨u, hexec, -⟩ := exec_effect i s
    simp only [List.cons_append, execAll, hexec] at h ⊢
    exact ih h

theorem execAll_cons {i : Instr} {s t : State} (h : exec i s = .next t) (rest : List Instr) :
    execAll (i :: rest) s = execAll rest t := by
  simp only [execAll, h]

/-- An instruction that is neither a call nor a return leaves the stack and `HALTED` as they are (R31, R224). -/
theorem exec_quiet {i : Instr} (hq : quiet i = true) (s : State) :
    ∃ t, exec i s = .next t ∧ t.stack = s.stack ∧ t.halted = s.halted := by
  obtain ⟨t, hexec, heffect⟩ := exec_effect i s
  refine ⟨t, hexec, heffect.keeps.stack fun hmem => ?_, heffect.keeps.halted fun hmem => ?_⟩
  · obtain ⟨nnn, rfl⟩ | rfl := mayWrite_of_mem_writtenParts s i _ hmem <;> simp [quiet] at hq
  · obtain ⟨rfl, -⟩ := mayWrite_of_mem_writtenParts s i _ hmem
    simp [quiet] at hq

/-- A call, a run that leaves the stack and `HALTED` as they are, and one return leave both as they are too, with the
program counter two past the call. -/
theorem execAll_call_ret {body : List Instr}
    (hbody : ∀ s, ∃ t, execAll body s = .next t ∧ t.stack = s.stack ∧ t.halted = s.halted) (target : Addr) (s : State) :
    ∃ t, execAll (.call target :: (body ++ [.ret])) s = .next t ∧ t.stack = s.stack ∧ PcMoved 2 s t ∧
      t.halted = s.halted := by
  obtain ⟨u, hrun, hstack, hhalted⟩ := hbody ((s.setStack (s.pc :: s.stack)).setPc target)
  refine ⟨(u.setStack s.stack).setPc (s.pc + 2#12), ?_, rfl, add_two_toNat s.pc, hhalted⟩
  rw [execAll_cons (exec_call target s), execAll_append hrun, execAll_cons (exec_ret_of_cons hstack)]
  rfl

/-- A run of nested calls leaves the stack and `HALTED` as they are. -/
theorem execAll_nested {is : List Instr} (h : Nested is) :
    ∀ s, ∃ t, execAll is s = .next t ∧ t.stack = s.stack ∧ t.halted = s.halted := by
  induction h with
  | nil => exact fun s => ⟨s, rfl, rfl, rfl⟩
  | step hq _ ih =>
    intro s
    obtain ⟨t, hexec, hstack, hhalted⟩ := exec_quiet hq s
    obtain ⟨u, hrun, hstack', hhalted'⟩ := ih t
    exact ⟨u, (execAll_cons hexec _).trans hrun, hstack'.trans hstack, hhalted'.trans hhalted⟩
  | nest target _ _ ihbody ihrest =>
    intro s
    obtain ⟨t, hcall, hstack, -, hhalted⟩ := execAll_call_ret ihbody target s
    obtain ⟨u, hrun, hstack', hhalted'⟩ := ihrest t
    refine ⟨u, ?_, hstack'.trans hstack, hhalted'.trans hhalted⟩
    rw [← hrun, ← execAll_append hcall]
    simp only [List.cons_append, List.append_assoc, List.nil_append]

/-- Settles O25: the body is a nested run, and around it stand one call and one return. -/
theorem nestedCallsReturn : Obligations.NestedCallsReturn :=
  fun target _ s hnested => execAll_call_ret (execAll_nested hnested) target s

end Sys2Proof.Machine
end

section
/-! The step and the host's transactions (30_encoding.md R80, 60_exceptions.md R222, R240 to R248, 70_reset_and_hazards.md):
what a step and a transaction can do, each said once, the invariant, and the obligations about them. -/

namespace Sys2Proof.Machine

/-! ## The step -/

/-- A running core executes the instruction it fetches (R80). -/
theorem step_of_running {s : State} (h : s.halted = .running) : step s = exec (fetchInstr s) s := by
  obtain ⟨-, hstep⟩ | ⟨f, hf, -⟩ := step_cases s
  · exact hstep
  · simp [h] at hf

/-- A halted core answers its fault (R222). -/
theorem step_of_faulted {s : State} {f : Fault} (h : s.halted = .faulted f) : step s = .fault f := by
  obtain ⟨hr, -⟩ | ⟨g, hg, hstep⟩ := step_cases s
  · simp [h] at hr
  · obtain rfl : f = g := by simpa [h] using hg
    exact hstep

/-- A step that answers a next state was taken by a running core. -/
theorem running_of_step {s t : State} (h : step s = .next t) :
    s.halted = .running ∧ exec (fetchInstr s) s = .next t := by
  obtain ⟨hr, hstep⟩ | ⟨f, -, hstep⟩ := step_cases s
  · exact ⟨hr, hstep ▸ h⟩
  · simp [hstep] at h

theorem statusOf_of_running {s : State} (h : s.halted = .running) : statusOf s = .ok := by
  simp [statusOf, State.recordedFault, h]

theorem stepCore_of_next {s t : State} (h : step s = .next t) : stepCore s = some (t, statusOf t) := by
  simp [stepCore, h]

theorem stepCore_of_fault {s : State} {f : Fault} (h : step s = .fault f) : stepCore s = some (s, .fault f) := by
  simp [stepCore, h]

/-! ## The transactions -/

/-- After the first reset every transaction is taken as `transactReady` says (R43, R240). -/
theorem transact_of_phase {font : Config.FontTable} {ses : Session} (h : ses.phase ≠ .beforeReset) (x : Transaction) :
    transact font ses x = transactReady font ses x := by
  simp [transact, h]

/-- A reset has its move in every phase (R260). -/
theorem transact_reset (font : Config.FontTable) (ses : Session) :
    transact font ses .reset = some (⟨resetCore font ses.core, .loadable⟩, .done) := by
  simp [transact, transactReady]

theorem transact_step {font : Config.FontTable} {s t : State} {phase : Phase} {r : StepStatus}
    (hphase : phase ≠ .beforeReset) (h : stepCore s = some (t, r)) :
    transact font ⟨s, phase⟩ .step = some (⟨t, .stepped⟩, .status r) := by
  rw [transact_of_phase hphase]
  simp [transactReady, h]

/-- What a transaction makes of the core when it has a move; a step of a running core is told apart in
`core_of_transact`. -/
def hostMove (font : Config.FontTable) : Transaction → State → State
  | .reset => resetCore font
  | .load rom => loadRom rom
  | .keyPressed m => pressKey m
  | .keyReleased m => releaseKey m
  | .timerTick => tickTimers
  | .step | .readDisplay | .readSoundTimer => id

/-- The core that a transaction with a move leaves. -/
theorem core_eq_of_some {t : State} {phase : Phase} {r r' : Response} {ses' : Session}
    (h : some (⟨t, phase⟩, r) = some (ses', r')) : ses'.core = t := by
  cases h
  rfl

/-- Everything a transaction can do to the core (R240 to R246). -/
theorem core_of_transact {font : Config.FontTable} {ses ses' : Session} {x : Transaction} {r : Response}
    (h : transact font ses x = some (ses', r)) :
    ses'.core = hostMove font x ses.core ∨ (x = .step ∧ step ses.core = .next ses'.core) := by
  have hready : transactReady font ses x = some (ses', r) := by
    unfold transact at h
    split at h
    · cases h
    · exact h
  cases x with
  | step =>
    cases hstep : step ses.core with
    | next t =>
      simp only [transactReady, stepCore_of_next hstep, Option.map_some] at hready
      exact .inr ⟨rfl, congrArg _ (core_eq_of_some hready).symm⟩
    | fault f =>
      simp only [transactReady, stepCore_of_fault hstep, Option.map_some] at hready
      exact .inl (core_eq_of_some hready)
    | refused q => simp [transactReady, stepCore, hstep] at hready
  | load rom => exact .inl (core_eq_of_some (Option.ite_none_right_eq_some.mp hready).2)
  | keyPressed m => exact .inl (core_eq_of_some (Option.ite_none_right_eq_some.mp hready).2)
  | keyReleased m => exact .inl (core_eq_of_some (Option.ite_none_right_eq_some.mp hready).2)
  | reset => exact .inl (core_eq_of_some hready)
  | timerTick => exact .inl (core_eq_of_some hready)
  | readDisplay => exact .inl (core_eq_of_some hready)
  | readSoundTimer => exact .inl (core_eq_of_some hready)

/-! ## The invariant -/

theorem inv_of_halted_eq_running {s : State} (hwf : s.mem.wf) (h : s.halted = .running) : Inv s :=
  ⟨hwf, fun f hf => by simp [h] at hf⟩

/-- Settles O10: reset memory is canonical and a core after reset runs. -/
theorem resetMeetsInvariant : Obligations.ResetMeetsInvariant :=
  ⟨inv_of_halted_eq_running reset_mem_wf rfl, fun font s => inv_of_halted_eq_running (resetCore_wf font s) rfl⟩

/-- Settles O11: every instruction keeps memory canonical, and the only one that writes `HALTED` is a return on an empty
stack, which records the fault at its own address. -/
theorem stepKeepsInvariant : Obligations.StepKeepsInvariant := by
  rintro s t ⟨hwf, -⟩ hstep
  obtain ⟨hrun, hexec⟩ := running_of_step hstep
  refine ⟨exec_mem_wf hexec hwf, fun f hf => ?_⟩
  have hne : t.halted ≠ s.halted := by simp [hf, hrun]
  obtain ⟨hret, hnil⟩ : fetchInstr s = .ret ∧ s.stack = [] :=
    mayWrite_of_mem_writtenParts s _ _ (Not.imp_symm (exec_keeps hexec).halted hne)
  rw [hret] at hexec
  obtain rfl := next_unique hexec (exec_ret_of_nil hnil)
  exact ⟨(Halted.faulted.inj hf).symm, hnil⟩

/-- What a transaction makes of the core keeps the invariant: a load and a reset keep memory canonical, and the others
write nothing that the invariant speaks of. -/
theorem inv_hostMove {s : State} (font : Config.FontTable) (x : Transaction) (h : Inv s) : Inv (hostMove font x s) := by
  obtain ⟨hwf, hhalt⟩ := h
  cases x with
  | reset => exact inv_of_halted_eq_running (resetCore_wf font s) rfl
  | load rom => exact ⟨storeBytes_wf _ rom hwf, hhalt⟩
  | _ => exact ⟨hwf, hhalt⟩

/-- Settles O12: a step by O11, every other move by `inv_hostMove`. -/
theorem transactionsKeepInvariant : Obligations.TransactionsKeepInvariant := by
  intro font ses ses' x r hinv h
  obtain hmove | ⟨-, hstep⟩ := core_of_transact h
  · exact hmove ▸ inv_hostMove font x hinv
  · exact stepKeepsInvariant ses.core ses'.core hinv hstep

/-! ## Steps -/

/-- Settles O6: the bytes of the premise are those that the fetch reads. -/
theorem stepRunsDecodedInstruction : Obligations.StepRunsDecodedInstruction := by
  intro s i rest hrun hdec
  have hfetch : fetchInstr s = i := by
    rw [memRead_mod] at hdec
    exact (Prod.mk.inj (Except.ok.inj hdec)).1
  rw [step_of_running hrun, hfetch]

/-- Settles O7: the step answers the recorded fault, and the transaction reports what the step answers. -/
theorem haltedCoreHasNoStep : Obligations.HaltedCoreHasNoStep := by
  intro s f hf
  have hstep := step_of_faulted hf
  exact ⟨hstep, stepCore_of_fault hstep, fun font phase hphase => transact_step hphase (stepCore_of_fault hstep)⟩

/-- Settles O23: the return records its fault, and the core that it leaves is a halted one. -/
theorem returnOnEmptyStackHalts : Obligations.ReturnOnEmptyStackHalts := by
  intro s hnil
  refine ⟨_, exec_ret_of_nil hnil, rfl, rfl, keeps_setHalted s _, fun hrun hfetch => ?_⟩
  have hstep : step s = .next (s.setHalted (.faulted (.stackUnderflow s.pc))) := by
    rw [step_of_running hrun, hfetch, exec_ret_of_nil hnil]
  have hcore : stepCore s = some (_, .fault (.stackUnderflow s.pc)) := stepCore_of_next hstep
  exact ⟨hcore, step_of_faulted rfl, fun font phase hphase => transact_step hphase hcore⟩

/-- Settles O60: no other instruction writes `HALTED`, so the state after the step still runs. -/
theorem stepTransactionReportsOk : Obligations.StepTransactionReportsOk := by
  intro font ses hphase hrun hnot
  obtain ⟨t, hexec, heffect⟩ := exec_effect (fetchInstr ses.core) ses.core
  have hstep : step ses.core = .next t := by rw [step_of_running hrun, hexec]
  have hhalted : t.halted = .running :=
    (heffect.keeps.halted fun hmem => hnot (mayWrite_of_mem_writtenParts _ _ _ hmem)).trans hrun
  refine ⟨t, hstep, transact_step hphase ?_⟩
  rw [stepCore_of_next hstep, statusOf_of_running hhalted]

/-- Settles O46: the two registers lie where the next fetch reads, the second address taken mod 4096. -/
theorem fetchSeesEarlierStores : Obligations.FetchSeesEarlierStores := by
  intro x s hx hi hrun hfetch
  have hstep : step s = .next (s.storeAtI ((regsUpTo x).map s.getV)) := by
    rw [step_of_running hrun, hfetch, exec_storeRegs]
  refine ⟨_, hstep, pcMoved_storeAtI s _, ?_⟩
  have h0 := memRead_storeAtI_regs s (x := x) (r := 0#4) (Nat.zero_le _)
  have h1 := memRead_storeAtI_regs s (x := x) (r := 1#4) hx
  have hpc : (s.storeAtI ((regsUpTo x).map s.getV)).pc = s.i := hi.symm
  have hword : fetchWord (s.storeAtI ((regsUpTo x).map s.getV)) = s.getV 0#4 ++ s.getV 1#4 := by
    rw [fetchWord, wordOfBytes, hpc, ← h0, ← h1]
    rfl
  have hrun' : (s.storeAtI ((regsUpTo x).map s.getV)).halted = .running := hrun
  rw [step_of_running hrun', fetchInstr, hword]

/-! ## Runs that stand still (R206, R266) -/

/-- A state that steps to itself is where any run from it ends. -/
theorem run_of_step_self {s : State} (h : step s = .next s) (n : Nat) : Host.Core.run Sys2Proof.core n s = .next s := by
  induction n with
  | zero => rfl
  | succ n ih =>
    have hstep : Sys2Proof.core.step s = .next s := h
    simp only [Host.Core.run, hstep]
    exact ih

/-- A mask with one key makes the key mask of a core other than 0 (R242). -/
theorem or_oneHot_ne_zero {keys m : Word} (h : oneHot m = true) : keys ||| m ≠ 0#16 := by
  obtain ⟨k, hk, rfl⟩ := (oneHot_iff m).mp h
  intro hzero
  have hbit := congrArg (fun w : Word => w.getLsbD k) hzero
  simp [BitVec.getLsbD_or, keyMask_getLsbD k k hk] at hbit

/-- Settles O54: each instruction steps to the state itself; a key press makes FX0A complete. -/
theorem runsThatStandStill : Obligations.RunsThatStandStill := by
  refine ⟨fun x s n hrun hfetch hkeys => ⟨run_of_step_self ?_ n, fun m hm => ?_⟩, fun e s n hends => ?_⟩
  · rw [step_of_running hrun, hfetch, exec_ldKey_of_no_key x hkeys]
  · have hfetch' : fetchInstr (pressKey m s) = .ldKey x := hfetch
    have hrun' : (pressKey m s).halted = .running := hrun
    have hkeys' : (pressKey m s).keys ≠ 0#16 := or_oneHot_ne_zero hm
    obtain ⟨t, hnext, -, hpc, -⟩ := writeResult_spec x (BitVec.ofNat 8 (lowestKey (pressKey m s).keys)) (pressKey m s)
    refine ⟨t, ?_, hpc⟩
    rw [step_of_running hrun', hfetch', exec_ldKey_of_key x hkeys', hnext]
  · obtain ⟨rfl, hword, hrun⟩ := hends
    refine run_of_step_self ?_ n
    rw [step_of_running hrun, fetchInstr, hword, decodeWord_jp, exec_jp, setPc_self]

end Sys2Proof.Machine
end

section
/-! The host's own moves (60_exceptions.md R240 to R248, 70_reset_and_hazards.md R260 to R264): reset, load, key events,
timer ticks and reads, and what of the core they reach. -/

namespace Sys2Proof.Machine

/-! ## Reset (R41, R260, R261) -/

/-- Every element after a reset with any font: memory from `memRead_resetCore`, the rest from `State.reset`. -/
theorem atReset_resetCore (font : Config.FontTable) (s : State) : AtReset font (resetCore font s) where
  v r := by rw [resetCore_eq, setDraws_getV, setMem_getV, getV_reset]
  i := rfl
  pc := rfl
  stack := rfl
  dt := rfl
  st := rfl
  keys := rfl
  disp x y := cellAt_clearDisplay x y
  halted := rfl
  font a h := by
    have hmod : a % memSize = a := Nat.mod_eq_of_lt (h.trans (by decide))
    simp only [memRead_resetCore, hmod, h, dif_pos]
  zero a hlo hhi := by
    have hmod : a % memSize = a := Nat.mod_eq_of_lt hhi
    rw [memRead_resetCore, dif_neg (by omega)]

/-- `State.reset` is the reset of itself with the default font. -/
theorem resetCore_reset : resetCore Config.defaultFont State.reset = State.reset :=
  resetCore_default State.reset

/-- Settles O8: the state a reset leaves does not depend on the session. -/
theorem resetLeavesEveryElement : Obligations.ResetLeavesEveryElement := by
  refine ⟨fun font ses => ⟨_, transact_reset font ses, atReset_resetCore font ses.core⟩, ?_, ?_⟩
  · rw [← resetCore_reset]
    exact atReset_resetCore _ _
  · intro font ses x hphase hx
    rw [transact, if_pos ⟨hphase, hx⟩]

/-- Settles O9: the two bytes at 0x200 are 0, which is the word of `0NNN` with NNN = 0. -/
theorem firstStepAfterReset : Obligations.FirstStepAfterReset := by
  intro t ht
  obtain ⟨font, s, rfl⟩ : ∃ font s, t = resetCore font s := by
    obtain rfl | h := ht
    · exact ⟨_, _, resetCore_reset.symm⟩
    · exact h
  have hreset := atReset_resetCore font s
  have hzero : ∀ a, 0x200 ≤ a → a < 4096 → memRead (resetCore font s).mem a = 0#8 :=
    fun a hlo hhi => hreset.zero a (by omega) hhi
  have hfetch : fetchInstr (resetCore font s) = .sys 0#12 := by
    have hword : fetchWord (resetCore font s) = wordOfBytes 0#8 0#8 := by
      rw [fetchWord, hreset.pc, hzero _ (by decide) (by decide), hzero _ (by decide) (by decide)]
    rw [fetchInstr, hword]
    rfl
  refine ⟨hreset.pc, hzero, hfetch, ?_⟩
  rw [step_of_running hreset.halted, hfetch, exec_sys, State.advance, hreset.pc]
  rfl

/-! ## Loading a ROM (R241, R264) -/

/-- A load after a reset and before the first step, of a ROM that fits, has its move (R241). -/
theorem transact_load {font : Config.FontTable} {s : State} {rom : List Byte} (hlen : rom.length ≤ 3584) :
    transact font ⟨s, .loadable⟩ (.load rom) = some (⟨loadRom rom s, .loadable⟩, .done) := by
  rw [transact_of_phase (by simp)]
  exact if_pos ⟨rfl, hlen⟩

/-- Byte `k` of a ROM lands at `0x200 + k` (R241). -/
theorem memRead_loadRom {rom : List Byte} (hlen : rom.length ≤ 3584) (s : State) {k : Nat} (hk : k < rom.length) :
    memRead (loadRom rom s).mem (0x200 + k) = rom[k] :=
  memRead_storeBytes_at rom s.mem 0x200 k (by simp only [memSize]; omega) hk

/-- A load leaves every byte outside the ROM's place as it is (R241). -/
theorem memRead_loadRom_other {rom : List Byte} (hlen : rom.length ≤ 3584) (s : State) {a : Nat}
    (ha : a % 4096 < 0x200 ∨ 0x200 + rom.length ≤ a % 4096) : memRead (loadRom rom s).mem a = memRead s.mem a := by
  refine memRead_storeBytes_other rom s.mem 0x200 a fun k hk => ?_
  simp only [memSize]
  omega

theorem keeps_loadRom {rom : List Byte} (hlen : rom.length ≤ 3584) (s : State) :
    Keeps ((List.range rom.length).map (fun k => .byte (0x200 + k))) s (loadRom rom s) := by
  constructor
  case byte =>
    intro a ha
    refine memRead_loadRom_other hlen s ?_
    by_contra hin
    have hlo : 0x200 ≤ a % 4096 := by omega
    exact ha (List.mem_map.mpr
      ⟨a % 4096 - 0x200, List.mem_range.mpr (by omega), congrArg Part.byte (Nat.add_sub_of_le hlo)⟩)
  all_goals
    intros
    rfl

/-- A reset and a load of a ROM that fits lead to the launch state (R262, R264). -/
theorem transactAll_launch (font : Config.FontTable) {rom : List Byte} (hlen : rom.length ≤ 3584) (ses : Session) :
    transactAll font [.reset, .load rom] ses = some ⟨launchCore font rom ses.core, .loadable⟩ := by
  simp only [transactAll, transact_reset, transact_load hlen, Option.bind_some]
  rfl

/-- The launch state differs from `State.reset` in memory and in the count of draws only. -/
theorem keeps_launchCore (font : Config.FontTable) (rom : List Byte) (s : State) :
    Keeps (.draws :: (List.range 4096).map .byte) State.reset (launchCore font rom s) := by
  constructor
  case byte =>
    intro a ha
    refine absurd ?_ ha
    exact List.mem_cons_of_mem _ (List.mem_map_of_mem (List.mem_range.mpr (Nat.mod_lt a (by decide))))
  case draws => exact fun h => absurd List.mem_cons_self h
  all_goals
    intros
    rfl

/-- Settles O58: a load stores the ROM from 0x200 on, over the memory that a reset leaves. -/
theorem romLoad : Obligations.RomLoad := by
  refine ⟨fun font ses rom => ⟨fun hphase hlen => ?_, fun hno => ?_⟩, fun font ses rom hlen => ?_⟩
  · obtain ⟨s, phase⟩ := ses
    obtain rfl : phase = .loadable := hphase
    exact ⟨_, transact_load hlen, rfl, keeps_loadRom hlen s, fun k hk => memRead_loadRom hlen s hk⟩
  · have hnot : ¬ (ses.phase = .loadable ∧ rom.length ≤ romMax) := by
      rintro ⟨hphase, hlen⟩
      obtain hstepped | hlong := hno
      · simp [hphase] at hstepped
      · exact absurd hlen (by simpa [romMax] using hlong)
    unfold transact
    split
    · rfl
    · exact if_neg hnot
  · have hreset := atReset_resetCore font ses.core
    refine ⟨_, transactAll_launch font hlen ses, rfl, keeps_launchCore font rom ses.core, fun a ha => ?_,
      fun k hk => memRead_loadRom hlen _ hk, fun a hlo hhi hout => ?_⟩
    · exact (memRead_loadRom_other hlen _ (by omega)).trans (hreset.font a ha)
    · exact (memRead_loadRom_other hlen _ (by omega)).trans (hreset.zero a hlo hhi)

/-! ## Key events and timer ticks (R242 to R244) -/

theorem keeps_setKeys (s : State) (m : Word) : Keeps [.keys] s (s.setKeys m) := by
  constructor <;> simp

theorem transact_keyPressed {font : Config.FontTable} {ses : Session} (hphase : ses.phase ≠ .beforeReset) (m : Word) :
    transact font ses (.keyPressed m) = if oneHot m then some (⟨pressKey m ses.core, ses.phase⟩, .done) else none :=
  transact_of_phase hphase _

theorem transact_keyReleased {font : Config.FontTable} {ses : Session} (hphase : ses.phase ≠ .beforeReset) (m : Word) :
    transact font ses (.keyReleased m) = if oneHot m then some (⟨releaseKey m ses.core, ses.phase⟩, .done) else none :=
  transact_of_phase hphase _

theorem pressKey_getLsbD (s : State) {k : Nat} (hk : k < 16) (j : Nat) :
    (pressKey (1#16 <<< k) s).keys.getLsbD j = (s.keys.getLsbD j || j == k) := by
  rw [pressKey, setKeys_keys, BitVec.getLsbD_or, keyMask_getLsbD k j hk]

theorem releaseKey_getLsbD (s : State) {k : Nat} (hk : k < 16) (j : Nat) :
    (releaseKey (1#16 <<< k) s).keys.getLsbD j = (s.keys.getLsbD j && j != k) := by
  rw [releaseKey, setKeys_keys, BitVec.getLsbD_and, BitVec.getLsbD_not, keyMask_getLsbD k j hk]
  by_cases hj : j < 16
  · simp [hj, bne]
  · simp [hj, BitVec.getLsbD_of_ge _ _ (Nat.le_of_not_lt hj)]

/-- Settles O56: the one bit of the mask is set or cleared; a mask that is not one-hot is turned away. -/
theorem keyEvents : Obligations.KeyEvents := by
  intro font ses m hphase
  rw [transact_keyPressed hphase, transact_keyReleased hphase]
  refine ⟨?_, fun hnone => ?_⟩
  · rintro k hk rfl
    have hhot : oneHot (1#16 <<< k) = true := (oneHot_iff _).mpr ⟨k, hk, rfl⟩
    rw [if_pos hhot, if_pos hhot]
    exact ⟨⟨_, rfl, rfl, keeps_setKeys _ _, pressKey_getLsbD ses.core hk⟩,
      ⟨_, rfl, rfl, keeps_setKeys _ _, releaseKey_getLsbD ses.core hk⟩⟩
  · have hcold : ¬ oneHot m = true := fun h => by
      obtain ⟨k, hk, rfl⟩ := (oneHot_iff m).mp h
      exact hnone k hk rfl
    rw [if_neg hcold, if_neg hcold]
    exact ⟨rfl, rfl⟩

/-- Settles O57: both timers go down by one, and a timer at zero stays there. -/
theorem timerTick : Obligations.TimerTick := by
  intro font ses hphase
  refine ⟨tickTimers ses.core, transact_of_phase hphase _, rfl, tickTimer_toNat _, tickTimer_toNat _, ?_⟩
  exact ((keeps_setDt _ _).mono (by simp)).trans ((keeps_setSt _ _).mono (by simp))

/-! ## What the host reads and reaches (R245 to R248) -/

theorem displayCells_length (s : State) : (displayCells s).length = 2048 :=
  (List.length_map _).trans List.length_range

/-- The cell at column `x` of row `y` is byte `y × 64 + x` of the read (R245, D6). -/
theorem displayCells_getElem? (s : State) {x y : Nat} (hx : x < 64) (hy : y < 32) :
    (displayCells s)[y * 64 + x]? = some (if cellAt s.disp x y then 1#8 else 0#8) := by
  have hlt : y * 64 + x < dispW * dispH := by simp only [dispW, dispH]; omega
  have hcol : (y * 64 + x) % dispW = x := by simp only [dispW]; omega
  have hrow : (y * 64 + x) / dispW = y := by simp only [dispW]; omega
  rw [displayCells, List.getElem?_map, List.getElem?_range hlt, Option.map_some, hcol, hrow]

/-- Settles O59: the read is `displayCells`; every other move is `hostMove`, which writes none of these parts. -/
theorem hostReachesNothingElse : Obligations.HostReachesNothingElse := by
  refine ⟨fun font ses hphase => ⟨transact_of_phase hphase _, _, transact_of_phase hphase _,
    displayCells_length ses.core, fun x hx y hy => displayCells_getElem? ses.core hx hy⟩, ?_⟩
  intro font ses ses' x r h hreset hstep
  obtain hmove | ⟨hx, -⟩ := core_of_transact h
  · rw [hmove]
    cases x with
    | reset => exact absurd rfl hreset
    | load rom => exact ⟨fun _ => rfl, rfl, rfl, rfl, rfl, fun hload => absurd rfl (hload rom)⟩
    | _ => exact ⟨fun _ => rfl, rfl, rfl, rfl, rfl, fun _ _ => rfl⟩
  · exact absurd hx hstep

/-- No instruction but 00E0 and DXYN changes the display (R187). -/
theorem disp_writer {i : Instr} {s t : State} (h : exec i s = .next t) (hne : t.disp ≠ s.disp) :
    i = .cls ∨ ∃ x y n, i = .drw x y n :=
  mayWrite_of_mem_writtenParts s i _ (Not.imp_symm (exec_keeps h).disp hne)

/-- Settles O17: an instruction by its frame, a transaction by `hostMove`, a step by the instruction that it fetches. -/
theorem displayWriters : Obligations.DisplayWriters := by
  refine ⟨fun i s t => disp_writer, fun font ses ses' x r h hne => ?_⟩
  obtain hmove | ⟨hx, hstep⟩ := core_of_transact h
  · rw [hmove] at hne
    cases x with
    | reset => exact .inl rfl
    | _ => exact absurd rfl hne
  · exact .inr ⟨hx, disp_writer (running_of_step hstep).2 hne⟩

end Sys2Proof.Machine
end

section
/-! The sound timer and `HALTED` are written and never read (10_state.md R33, R39): every operation of the instructions
commutes with another value put in both of them. -/

namespace Sys2Proof.Machine

/-- The state with other values in the two elements that no instruction reads. -/
def State.withUnread (s : State) (b : Byte) (h : Halted) : State := (s.setSt b).setHalted h

/-! ## The operations that branch, loop or fold -/

theorem skipIf_withUnread (s : State) (c : Bool) (b : Byte) (h : Halted) :
    (s.withUnread b h).skipIf c = (s.skipIf c).withUnread b h := by
  cases c <;> rfl

theorem loadFromI_withUnread (s : State) (x : RegNum) (b : Byte) (h : Halted) :
    (s.withUnread b h).loadFromI x = (s.loadFromI x).withUnread b h := by
  have hv : ((s.withUnread b h).loadFromI x).v = (s.loadFromI x).v :=
    v_ext fun r => (getV_loadFromI _ x r).trans (getV_loadFromI s x r).symm
  rw [loadFromI_eq, hv, loadFromI_eq s x]
  rfl

theorem plot_withUnread (px py : Nat) (s : State) (b : Byte) (h : Halted) :
    plot px py (s.withUnread b h) = (plot px py s).withUnread b h := by
  have hdisp : (s.withUnread b h).disp = s.disp := rfl
  unfold plot
  rw [hdisp]
  split_ifs <;> rfl

theorem drawRow_withUnread (start : Option (Nat × Nat)) (x y : RegNum) (r : Nat) (row : Byte) (cs : List Nat) (s : State)
    (b : Byte) (h : Halted) :
    drawRow start x y r row cs (s.withUnread b h) = (drawRow start x y r row cs s).withUnread b h := by
  induction cs generalizing s with
  | nil => rfl
  | cons c rest ih =>
    have hcoords : coordsNow (s.withUnread b h) x y = coordsNow s x y := rfl
    simp only [drawRow, hcoords, plot_withUnread]
    split_ifs
    · rfl
    · exact ih _
    · exact ih _

theorem drawRows_withUnread (start : Option (Nat × Nat)) (x y : RegNum) (rs : List Nat) (s : State) (b : Byte)
    (h : Halted) : drawRows start x y rs (s.withUnread b h) = (drawRows start x y rs s).withUnread b h := by
  induction rs generalizing s with
  | nil => rfl
  | cons r rest ih =>
    rw [drawRows, drawRow_withUnread]
    exact ih _

theorem drawSprite_withUnread (m : DrawCoordRead) (x y n : BitVec 4) (s : State) (b : Byte) (h : Halted) :
    drawSprite m x y n (s.withUnread b h) = (drawSprite m x y n s).withUnread b h := by
  have hstart : drawStart m x y (s.withUnread b h) = drawStart m x y s := by cases m <;> rfl
  rw [drawSprite, hstart]
  exact drawRows_withUnread _ x y _ (s.setFlag 0#8) b h

/-! ## The instructions -/

/-- Every instruction but FX18 and a return on an empty stack, which write these elements, carries other values in them
through unchanged. -/
theorem exec_withUnread {i : Instr} {s t : State} (h : exec i s = .next t) (hst : ¬ ∃ x, i = .ldSt x)
    (hret : ¬ (i = .ret ∧ s.stack = [])) (b : Byte) (hd : Halted) :
    exec i (s.withUnread b hd) = .next (t.withUnread b hd) := by
  cases i with
  | ret =>
    obtain ⟨a, rest, hstack⟩ := List.exists_cons_of_ne_nil fun hnil => hret ⟨rfl, hnil⟩
    obtain rfl := next_unique h (exec_ret_of_cons hstack)
    exact exec_ret_of_cons hstack
  | ldSt x => exact absurd ⟨x, rfl⟩ hst
  | ldKey x =>
    by_cases hkeys : s.keys = 0#16
    · obtain rfl := next_unique h (exec_ldKey_of_no_key x hkeys)
      exact exec_ldKey_of_no_key x hkeys
    · obtain rfl := next_unique h (exec_ldKey_of_key x hkeys)
      exact exec_ldKey_of_key x hkeys
  | seImm x nn => exact next_unique h (exec_seImm x nn s) ▸ congrArg _ (skipIf_withUnread s _ b hd)
  | sneImm x nn => exact next_unique h (exec_sneImm x nn s) ▸ congrArg _ (skipIf_withUnread s _ b hd)
  | seReg x y => exact next_unique h (exec_seReg x y s) ▸ congrArg _ (skipIf_withUnread s _ b hd)
  | sneReg x y => exact next_unique h (exec_sneReg x y s) ▸ congrArg _ (skipIf_withUnread s _ b hd)
  | skp x => exact next_unique h rfl ▸ congrArg _ (skipIf_withUnread s _ b hd)
  | sknp x => exact next_unique h rfl ▸ congrArg _ (skipIf_withUnread s _ b hd)
  | loadRegs x => exact next_unique h (exec_loadRegs x s) ▸ congrArg _ (loadFromI_withUnread s x b hd)
  | drw x y n =>
    obtain rfl := next_unique h (exec_drw x y n s)
    exact congrArg (fun u : State => Host.Outcome.next u.advance) (drawSprite_withUnread (drawMode x y) x y n s b hd)
  | _ => exact next_unique h rfl ▸ rfl

/-- Settles O18: the two instructions that write one of the two elements do not read it, and every other instruction
carries it through. -/
theorem soundTimerAndHaltedUnread : Obligations.SoundTimerAndHaltedUnread := by
  intro i s t h
  by_cases hst : ∃ x, i = .ldSt x
  · obtain ⟨x, rfl⟩ := hst
    obtain rfl := next_unique h (exec_ldSt x s)
    exact ⟨fun b => ⟨_, exec_ldSt x _, rfl⟩, fun hd => ⟨_, exec_ldSt x _, rfl⟩⟩
  by_cases hret : i = .ret ∧ s.stack = []
  · obtain ⟨rfl, hnil⟩ := hret
    obtain rfl := next_unique h (exec_ret_of_nil hnil)
    exact ⟨fun b => ⟨_, exec_ret_of_nil hnil, rfl⟩, fun hd => ⟨_, exec_ret_of_nil hnil, rfl⟩⟩
  have hkeeps := exec_keeps h
  have hhalted : t.halted = s.halted := hkeeps.halted (mt (mayWrite_of_mem_writtenParts s i _) hret)
  have hsound : t.st = s.st := hkeeps.st (mt (mayWrite_of_mem_writtenParts s i _) hst)
  refine ⟨fun b => ⟨_, exec_withUnread h hst hret b s.halted, ?_⟩,
    fun hd => ⟨_, exec_withUnread h hst hret s.st hd, ?_⟩⟩
  · rw [← hhalted]
    rfl
  · rw [← hsound]
    rfl

end Sys2Proof.Machine
end

section
/-! The drawing loop of DXYN as one run over the pixels of the sprite (43_display.md R181 to R185). Pixel `k = 8 × r + c` is
the one in column `c` of row `r`; a row left at the edge of the buffer (R183) is a row whose other pixels draw nothing. -/

namespace Sys2Proof.Machine

/-! ## Pixels -/

/-- Where the top left of the sprite is, for a pixel drawn on the state `s`: `start` is as in `drawRow`. -/
def topLeft (start : Option (Nat × Nat)) (x y : RegNum) (s : State) : Nat × Nat := start.getD (coordsNow s x y)

/-- Pixel `k` of the sprite drawn: a set pixel on a cell of the buffer is plotted. -/
def drawPixel (start : Option (Nat × Nat)) (x y : RegNum) (k : Nat) (s : State) : State :=
  if ((topLeft start x y s).1 + k % 8 < 64 ∧ (topLeft start x y s).2 + k / 8 < 32) ∧
      spritePixel s (k / 8) (k % 8) = true then
    plot ((topLeft start x y s).1 + k % 8) ((topLeft start x y s).2 + k / 8) s
  else s

/-- The pixels of a list drawn one after another. -/
def drawPixels (start : Option (Nat × Nat)) (x y : RegNum) (ks : List Nat) (s : State) : State :=
  ks.foldl (fun t k => drawPixel start x y k t) s

theorem drawPixels_cons (start : Option (Nat × Nat)) (x y : RegNum) (k : Nat) (ks : List Nat) (s : State) :
    drawPixels start x y (k :: ks) s = drawPixels start x y ks (drawPixel start x y k s) := rfl

theorem drawPixels_append (start : Option (Nat × Nat)) (x y : RegNum) (ks js : List Nat) (s : State) :
    drawPixels start x y (ks ++ js) s = drawPixels start x y js (drawPixels start x y ks s) :=
  List.foldl_append

theorem drawPixel_keeps (start : Option (Nat × Nat)) (x y : RegNum) (k : Nat) (s : State) :
    Keeps [.disp, .reg vf] s (drawPixel start x y k s) := by
  unfold drawPixel
  split_ifs
  · exact plot_keeps _ _ _
  · exact Keeps.refl _ s

theorem drawPixels_keeps (start : Option (Nat × Nat)) (x y : RegNum) (ks : List Nat) (s : State) :
    Keeps [.disp, .reg vf] s (drawPixels start x y ks s) := by
  induction ks generalizing s with
  | nil => exact Keeps.refl _ s
  | cons k rest ih => exact (drawPixel_keeps start x y k s).trans (ih _)

/-- Pixels that draw nothing leave the state as it is. -/
theorem drawPixels_eq_self {start : Option (Nat × Nat)} {x y : RegNum} {ks : List Nat} {s : State}
    (h : ∀ k ∈ ks, drawPixel start x y k s = s) : drawPixels start x y ks s = s := by
  induction ks with
  | nil => rfl
  | cons k rest ih =>
    rw [drawPixels_cons, h k List.mem_cons_self]
    exact ih fun j hj => h j (List.mem_cons_of_mem k hj)

/-- The sprite's pixels are read from memory at `I`, which drawing does not write (R181). -/
theorem spritePixel_of_keeps {s t : State} (h : Keeps [.disp, .reg vf] s t) (r c : Nat) :
    spritePixel t r c = spritePixel s r c := by
  rw [spritePixel, spritePixel, h.i (by simp), h.byte _ (by simp)]

/-! ## The loop as a run over pixels -/

theorem pixel_row (r : Nat) {c : Nat} (hc : c < 8) : (8 * r + c) / 8 = r := by omega

theorem pixel_col (r : Nat) {c : Nat} (hc : c < 8) : (8 * r + c) % 8 = c := by omega

theorem drawRow_cons (start : Option (Nat × Nat)) (x y : RegNum) (r : Nat) (row : Byte) (c : Nat) (rest : List Nat)
    (s : State) : drawRow start x y r row (c :: rest) s =
      if dispW ≤ (topLeft start x y s).1 + c ∨ dispH ≤ (topLeft start x y s).2 + r then s
      else drawRow start x y r row rest
        (if spriteBit row c then plot ((topLeft start x y s).1 + c) ((topLeft start x y s).2 + r) s else s) := rfl

/-- A row is its pixels: what the loop leaves out at the edge of the buffer would draw nothing (R183). -/
theorem drawRow_eq_drawPixels (start : Option (Nat × Nat)) (x y : RegNum) (r : Nat) {row : Byte} {cs : List Nat}
    {s : State} (hrow : ∀ c, spriteBit row c = spritePixel s r c) (hsorted : cs.Pairwise (· < ·))
    (hcols : ∀ c ∈ cs, c < 8) :
    drawRow start x y r row cs s = drawPixels start x y (cs.map (8 * r + ·)) s := by
  induction cs generalizing s with
  | nil => rfl
  | cons c rest ih =>
    obtain ⟨hlt, hrest⟩ := List.pairwise_cons.mp hsorted
    have hc : c < 8 := hcols c List.mem_cons_self
    by_cases hout : dispW ≤ (topLeft start x y s).1 + c ∨ dispH ≤ (topLeft start x y s).2 + r
    · rw [drawRow_cons, if_pos hout]
      refine (drawPixels_eq_self fun k hk => ?_).symm
      obtain ⟨d, hd, rfl⟩ := List.mem_map.mp hk
      have hcd : c ≤ d := (List.mem_cons.mp hd).elim (fun e => e.ge) (fun h => (hlt d h).le)
      simp only [dispW, dispH] at hout
      rw [drawPixel, pixel_row r (hcols d hd), pixel_col r (hcols d hd), if_neg (by omega)]
    · have hpixel : (if spriteBit row c then plot ((topLeft start x y s).1 + c) ((topLeft start x y s).2 + r) s
          else s) = drawPixel start x y (8 * r + c) s := by
        simp only [dispW, dispH] at hout
        have hin : (topLeft start x y s).1 + c < 64 ∧ (topLeft start x y s).2 + r < 32 := by omega
        simp only [drawPixel, pixel_row r hc, pixel_col r hc, hrow, hin, true_and, and_self]
      rw [drawRow_cons, if_neg hout, hpixel, List.map_cons, drawPixels_cons]
      refine ih (fun d => ?_) hrest fun d hd => hcols d (List.mem_cons_of_mem c hd)
      rw [spritePixel_of_keeps (drawPixel_keeps start x y _ s), hrow]

/-- The rows of a sprite are its first `8 × n` pixels in order. -/
theorem drawRows_eq_drawPixels (start : Option (Nat × Nat)) (x y : RegNum) (rs : List Nat) (s : State) :
    drawRows start x y rs s = drawPixels start x y (rs.flatMap fun r => (List.range 8).map (8 * r + ·)) s := by
  induction rs generalizing s with
  | nil => rfl
  | cons r rest ih =>
    have hrow : ∀ c, spriteBit (memRead s.mem (effAddr s r)) c = spritePixel s r c := fun _ => rfl
    rw [drawRows, List.flatMap_cons, drawPixels_append, ih,
      drawRow_eq_drawPixels start x y r hrow List.pairwise_lt_range fun c hc => List.mem_range.mp hc]

theorem flatMap_pixels (n : Nat) :
    ((List.range n).flatMap fun r => (List.range 8).map (8 * r + ·)) = List.range (8 * n) := by
  induction n with
  | zero => rfl
  | succ n ih =>
    rw [List.range_succ (n := n), List.flatMap_append, ih, List.flatMap_singleton, Nat.mul_succ, List.range_add]

/-- A sprite: the flag cleared, then its pixels (R181). -/
theorem drawSprite_eq_drawPixels (m : DrawCoordRead) (x y n : BitVec 4) (s : State) :
    drawSprite m x y n s = drawPixels (drawStart m x y s) x y (List.range (8 * n.toNat)) (s.setFlag 0#8) := by
  rw [drawSprite, drawRows_eq_drawPixels, flatMap_pixels]

/-! ## The cells and the flag after a run from a fixed top left -/

/-- Whether pixel `k` of a sprite at `(x0, y0)` is set and lies on the cell `(px, py)`. -/
def pixelHits (s : State) (x0 y0 px py k : Nat) : Bool :=
  x0 + k % 8 == px && y0 + k / 8 == py && spritePixel s (k / 8) (k % 8)

/-- Two pixels of a sprite do not lie on one cell. -/
theorem pixelHits_unique {s : State} {x0 y0 px py j k : Nat} (hj : pixelHits s x0 y0 px py j = true)
    (hk : pixelHits s x0 y0 px py k = true) : j = k := by
  simp only [pixelHits, Bool.and_eq_true, beq_iff_eq] at hj hk
  omega

theorem pixelHits_of_keeps {s t : State} (h : Keeps [.disp, .reg vf] s t) (x0 y0 px py k : Nat) :
    pixelHits t x0 y0 px py k = pixelHits s x0 y0 px py k := by
  rw [pixelHits, pixelHits, spritePixel_of_keeps h]

/-- One pixel flips the cell it lies on, if it is set (R181). -/
theorem drawPixel_cell (x0 y0 : Nat) (x y : RegNum) (k : Nat) (s : State) {px py : Nat} (hx : px < 64) (hy : py < 32) :
    cellAt (drawPixel (some (x0, y0)) x y k s).disp px py = (cellAt s.disp px py ^^ pixelHits s x0 y0 px py k) := by
  unfold drawPixel
  split_ifs with h
  · obtain ⟨⟨hcol, hrow⟩, hset⟩ := h
    rw [plot_cell _ _ s hcol hrow, pixelHits, hset, Bool.and_true, Bool.beq_comm (a := px), Bool.beq_comm (a := py)]
    rfl
  · have hmiss : pixelHits s x0 y0 px py k = false := by
      rw [Bool.eq_false_iff]
      intro hhit
      simp only [pixelHits, Bool.and_eq_true, beq_iff_eq] at hhit
      obtain ⟨⟨rfl, rfl⟩, hset⟩ := hhit
      exact h ⟨⟨hx, hy⟩, hset⟩
    rw [hmiss, Bool.xor_false]

/-- A pixel that collides turns the flag to 1, and no other touches it (R181). -/
theorem drawPixel_vf (x0 y0 : Nat) (x y : RegNum) (k : Nat) (s : State) :
    (drawPixel (some (x0, y0)) x y k s).getV vf = if pixelCollides s x0 y0 k then 1#8 else s.getV vf := by
  by_cases h : (x0 + k % 8 < 64 ∧ y0 + k / 8 < 32) ∧ spritePixel s (k / 8) (k % 8) = true
  · have hcol : pixelCollides s x0 y0 k = cellAt s.disp (x0 + k % 8) (y0 + k / 8) := by simp [pixelCollides, h]
    rw [hcol, ← plot_vf]
    exact congrArg (State.getV · vf) (if_pos h)
  · have hcol : pixelCollides s x0 y0 k = false := by
      rw [Bool.eq_false_iff]
      intro hcol
      simp only [pixelCollides, Bool.and_eq_true, decide_eq_true_eq] at hcol
      obtain ⟨⟨⟨hset, hx⟩, hy⟩, -⟩ := hcol
      exact h ⟨⟨hx, hy⟩, hset⟩
    rw [hcol]
    exact congrArg (State.getV · vf) (if_neg h)

/-- Drawing one pixel does not decide whether another one collides. -/
theorem pixelCollides_drawPixel (x0 y0 : Nat) (x y : RegNum) {j k : Nat} (hjk : j ≠ k) (s : State) :
    pixelCollides (drawPixel (some (x0, y0)) x y k s) x0 y0 j = pixelCollides s x0 y0 j := by
  by_cases hin : x0 + j % 8 < 64 ∧ y0 + j / 8 < 32
  · have hmiss : pixelHits s x0 y0 (x0 + j % 8) (y0 + j / 8) k = false := by
      rw [Bool.eq_false_iff]
      intro hhit
      simp only [pixelHits, Bool.and_eq_true, beq_iff_eq] at hhit
      omega
    rw [pixelCollides, drawPixel_cell x0 y0 x y k s hin.1 hin.2, hmiss, Bool.xor_false,
      spritePixel_of_keeps (drawPixel_keeps _ x y k s), pixelCollides]
  · have hout : ∀ t : State, pixelCollides t x0 y0 j = false := fun t => by
      rw [Bool.eq_false_iff]
      intro hcol
      simp only [pixelCollides, Bool.and_eq_true, decide_eq_true_eq] at hcol
      omega
    rw [hout, hout]

/-- A run of different pixels leaves 1 in the flag if one of them collides, and else the flag as it was. -/
theorem drawPixels_vf (x0 y0 : Nat) (x y : RegNum) {ks : List Nat} (hks : ks.Nodup) (s : State) :
    (drawPixels (some (x0, y0)) x y ks s).getV vf = if ks.any (pixelCollides s x0 y0) then 1#8 else s.getV vf := by
  induction ks generalizing s with
  | nil => rfl
  | cons k rest ih =>
    obtain ⟨hk, hrest⟩ := List.nodup_cons.mp hks
    have hsame : rest.any (pixelCollides (drawPixel (some (x0, y0)) x y k s) x0 y0) =
        rest.any (pixelCollides s x0 y0) := by
      rw [Bool.eq_iff_iff, List.any_eq_true, List.any_eq_true]
      refine exists_congr fun j => and_congr_right fun hj => ?_
      rw [pixelCollides_drawPixel x0 y0 x y (ne_of_mem_of_not_mem hj hk)]
    rw [drawPixels_cons, ih hrest, hsame, drawPixel_vf, List.any_cons]
    cases pixelCollides s x0 y0 k <;> simp

/-- A run of different pixels flips each cell that one of them lies on. -/
theorem drawPixels_cell (x0 y0 : Nat) (x y : RegNum) {ks : List Nat} (hks : ks.Nodup) (s : State) {px py : Nat}
    (hx : px < 64) (hy : py < 32) :
    cellAt (drawPixels (some (x0, y0)) x y ks s).disp px py =
      (cellAt s.disp px py ^^ ks.any (pixelHits s x0 y0 px py)) := by
  induction ks generalizing s with
  | nil => simp [drawPixels]
  | cons k rest ih =>
    obtain ⟨hk, hrest⟩ := List.nodup_cons.mp hks
    have hsame : pixelHits (drawPixel (some (x0, y0)) x y k s) x0 y0 px py = pixelHits s x0 y0 px py :=
      funext fun j => pixelHits_of_keeps (drawPixel_keeps _ x y k s) x0 y0 px py j
    rw [drawPixels_cons, ih hrest, hsame, drawPixel_cell x0 y0 x y k s hx hy, Bool.xor_assoc, List.any_cons]
    congr 1
    cases hhit : pixelHits s x0 y0 px py k with
    | false => rw [Bool.false_xor, Bool.false_or]
    | true =>
      have hnone : rest.any (pixelHits s x0 y0 px py) = false := by
        rw [List.any_eq_false]
        exact fun j hj hhit' => hk (pixelHits_unique hhit' hhit ▸ hj)
      rw [hnone]
      rfl

/-! ## The coordinates read at each pixel (R185) -/

/-- A run during which the registers X and Y keep their values: neither is the flag, or the flag stays, since it is 1
already or no pixel of the run collides. -/
def Steady (x y : RegNum) (ks : List Nat) (s : State) : Prop :=
  (x ≠ vf ∧ y ≠ vf) ∨ s.getV vf = 1#8 ∨ ∀ k ∈ ks, pixelCollides s (coordsNow s x y).1 (coordsNow s x y).2 k = false

/-- The registers that hold the coordinates are kept if neither is the flag, or the flag is kept too. -/
theorem coordsNow_of_keeps {s t : State} (h : Keeps [.disp, .reg vf] s t) {x y : RegNum}
    (hvf : (x ≠ vf ∧ y ≠ vf) ∨ t.getV vf = s.getV vf) : coordsNow t x y = coordsNow s x y := by
  have hreg : ∀ r, r ≠ vf ∨ t.getV vf = s.getV vf → t.getV r = s.getV r := fun r hr => by
    by_cases hrv : r = vf
    · rw [hrv]
      exact hr.resolve_left (not_not_intro hrv)
    · exact h.reg r (by simpa using hrv)
  rw [coordsNow, hreg x (hvf.imp_left And.left), hreg y (hvf.imp_left And.right), coordsNow]

/-- During a steady run it does not matter whether the registers are read once or at each pixel. -/
theorem drawPixels_live_of_steady (x y : RegNum) {ks : List Nat} (hks : ks.Nodup) {s : State} (h : Steady x y ks s) :
    drawPixels none x y ks s = drawPixels (some (coordsNow s x y)) x y ks s := by
  induction ks generalizing s with
  | nil => rfl
  | cons k rest ih =>
    obtain ⟨hk, hrest⟩ := List.nodup_cons.mp hks
    have hlive : drawPixel none x y k s = drawPixel (some (coordsNow s x y)) x y k s := rfl
    have hflag := drawPixel_vf (coordsNow s x y).1 (coordsNow s x y).2 x y k s
    have hvf : (x ≠ vf ∧ y ≠ vf) ∨ (drawPixel (some (coordsNow s x y)) x y k s).getV vf = s.getV vf := by
      obtain hxy | hone | hfree := h
      · exact .inl hxy
      · exact .inr (hflag.trans (by rw [hone, ite_self]))
      · exact .inr (hflag.trans (by rw [hfree k List.mem_cons_self]; rfl))
    have hcoords := coordsNow_of_keeps (drawPixel_keeps (some (coordsNow s x y)) x y k s) hvf
    have hsteady : Steady x y rest (drawPixel (some (coordsNow s x y)) x y k s) := by
      obtain hxy | hone | hfree := h
      · exact .inl hxy
      · exact .inr (.inl (hflag.trans (by rw [hone, ite_self])))
      · refine .inr (.inr fun j hj => ?_)
        rw [hcoords, pixelCollides_drawPixel _ _ x y (ne_of_mem_of_not_mem hj hk)]
        exact hfree j (List.mem_cons_of_mem k hj)
    rw [drawPixels_cons, drawPixels_cons, hlive, ih hrest hsteady, hcoords]

/-! ## The formulas of the statements, pixel by pixel -/

theorem spriteCoversPart_eq_true_iff {part : Nat → Bool} {s : State} {x0 y0 n px py : Nat} (hx : px < 64)
    (hy : py < 32) : spriteCoversPart part s x0 y0 n px py = true ↔
      ∃ k < 8 * n, part k = true ∧ pixelHits s x0 y0 px py k = true := by
  simp only [spriteCoversPart, pixelHits, List.any_eq_true, List.mem_range, Bool.and_eq_true, beq_iff_eq,
    decide_eq_true_eq]
  constructor
  · rintro ⟨r, hr, c, hc, ⟨⟨⟨⟨hpart, hcol⟩, hrow⟩, -⟩, -⟩, hset⟩
    refine ⟨8 * r + c, by omega, hpart, ?_⟩
    rw [pixel_row r hc, pixel_col r hc]
    exact ⟨⟨hcol, hrow⟩, hset⟩
  · rintro ⟨k, hk, hpart, ⟨hcol, hrow⟩, hset⟩
    refine ⟨k / 8, by omega, k % 8, by omega, ⟨⟨⟨⟨?_, hcol⟩, hrow⟩, hx⟩, hy⟩, hset⟩
    rwa [Nat.div_add_mod]

/-- A run over the pixels that `part` takes hits the cells that they cover. -/
theorem any_pixelHits_eq {part : Nat → Bool} {ks : List Nat} {s : State} {x0 y0 n px py : Nat} (hx : px < 64)
    (hy : py < 32) (hks : ∀ k, k ∈ ks ↔ k < 8 * n ∧ part k = true) :
    ks.any (pixelHits s x0 y0 px py) = spriteCoversPart part s x0 y0 n px py := by
  rw [Bool.eq_iff_iff, spriteCoversPart_eq_true_iff hx hy, List.any_eq_true]
  simp only [hks, and_assoc]

/-- A sprite collides when one of its pixels does (R181). -/
theorem any_pixelCollides_eq (s : State) (x0 y0 n : Nat) :
    (List.range (8 * n)).any (pixelCollides s x0 y0) = spriteCollides s x0 y0 n := by
  rw [Bool.eq_iff_iff]
  simp only [spriteCollides, List.any_eq_true, List.mem_range, Bool.and_eq_true]
  constructor
  · rintro ⟨k, hk, hcol⟩
    simp only [pixelCollides, Bool.and_eq_true, decide_eq_true_eq] at hcol
    obtain ⟨⟨⟨hset, hx⟩, hy⟩, hlit⟩ := hcol
    refine ⟨y0 + k / 8, hy, x0 + k % 8, hx, (spriteCoversPart_eq_true_iff hx hy).mpr ⟨k, hk, rfl, ?_⟩, hlit⟩
    simp [pixelHits, hset]
  · rintro ⟨py, hy, px, hx, hcovers, hlit⟩
    obtain ⟨k, hk, -, hhit⟩ := (spriteCoversPart_eq_true_iff hx hy).mp hcovers
    simp only [pixelHits, Bool.and_eq_true, beq_iff_eq] at hhit
    obtain ⟨⟨rfl, rfl⟩, hset⟩ := hhit
    refine ⟨k, hk, ?_⟩
    have hx' : x0 + k % 8 < 64 := hx
    have hy' : y0 + k / 8 < 32 := hy
    simp [pixelCollides, hset, hx', hy', hlit]

end Sys2Proof.Machine
end

section
/-! DXYN (43_display.md R181 to R186): the outcome of a whole sprite from a fixed top left and from coordinates read at each
pixel, and the obligations. -/

namespace Sys2Proof.Machine

/-! ## A sprite from a fixed top left -/

/-- `t` is `s` with a sprite of `n` rows drawn at `(x0, y0)`, by the formulas of Safety.lean. -/
structure DrawnAt (s t : State) (x0 y0 n : Nat) : Prop where
  cell : ∀ px < 64, ∀ py < 32, cellAt t.disp px py = (cellAt s.disp px py ^^ spriteCovers s x0 y0 n px py)
  flag : t.getV vf = if spriteCollides s x0 y0 n then 1#8 else 0#8

theorem drawnAt_drawPixels (x0 y0 : Nat) (x y : RegNum) (n : Nat) (s : State) :
    DrawnAt s (drawPixels (some (x0, y0)) x y (List.range (8 * n)) (s.setFlag 0#8)) x0 y0 n where
  cell px hx py hy := by
    rw [drawPixels_cell x0 y0 x y List.nodup_range _ hx hy,
      any_pixelHits_eq (part := fun _ => true) (n := n) hx hy fun k => by simp]
    rfl
  flag := by
    rw [drawPixels_vf x0 y0 x y List.nodup_range, any_pixelCollides_eq, getV_setFlag, if_pos rfl]
    rfl

/-- What the registers hold after the flag is cleared (R185). -/
theorem coordsNow_setFlag (x y : RegNum) (f : Byte) (s : State) :
    coordsNow (s.setFlag f) x y =
      (if x = vf then f.toNat else (s.getV x).toNat, if y = vf then f.toNat else (s.getV y).toNat) := by
  rw [coordsNow, getV_setFlag, getV_setFlag, apply_ite BitVec.toNat, apply_ite BitVec.toNat]

theorem drawnAt_beforeClear (x y n : BitVec 4) (s : State) :
    DrawnAt s (drawSprite .beforeClear x y n s) (s.getV x).toNat (s.getV y).toNat n.toNat := by
  rw [drawSprite_eq_drawPixels]
  exact drawnAt_drawPixels _ _ x y n.toNat s

theorem drawnAt_afterClear (x y n : BitVec 4) (s : State) :
    DrawnAt s (drawSprite .afterClear x y n s) (if x = vf then 0 else (s.getV x).toNat)
      (if y = vf then 0 else (s.getV y).toNat) n.toNat := by
  rw [drawSprite_eq_drawPixels, drawStart, coordsNow_setFlag]
  exact drawnAt_drawPixels _ _ x y n.toNat s

/-- With a steady run of pixels, reading at each pixel is reading once after the clear (R185). -/
theorem drawSprite_live_of_steady {x y n : BitVec 4} {s : State}
    (h : Steady x y (List.range (8 * n.toNat)) (s.setFlag 0#8)) :
    drawSprite .live x y n s = drawSprite .afterClear x y n s := by
  rw [drawSprite_eq_drawPixels, drawSprite_eq_drawPixels]
  exact drawPixels_live_of_steady x y List.nodup_range h

/-- With neither X nor Y 15 every reading is the first one (R185). -/
theorem drawSprite_eq_beforeClear {x y : BitVec 4} (hx : x ≠ vf) (hy : y ≠ vf) (n : BitVec 4) (s : State)
    (m : DrawCoordRead) : drawSprite m x y n s = drawSprite .beforeClear x y n s := by
  have hafter : drawSprite .afterClear x y n s = drawSprite .beforeClear x y n s := by
    rw [drawSprite, drawSprite, drawStart, drawStart, coordsNow_setFlag, if_neg hx, if_neg hy, coordsNow]
  cases m with
  | beforeClear => rfl
  | afterClear => exact hafter
  | live => exact (drawSprite_live_of_steady (.inl ⟨hx, hy⟩)).trans hafter

/-- The meaning of DXYN, whatever X and Y: the draw under the open parameter (R185). -/
theorem exec_drw_eq (x y n : BitVec 4) (s : State) :
    exec (.drw x y n) s = .next (drawSprite Config.drawCoordRead x y n s).advance := by
  rw [exec_drw, drawMode]
  split_ifs with h
  · rfl
  · obtain ⟨hx, hy⟩ := not_or.mp h
    rw [drawSprite_eq_beforeClear hx hy n s Config.drawCoordRead]

/-- Everything DXYN does when neither X nor Y is 15 (R181 to R184). -/
theorem drw_spec {x y : BitVec 4} (hx : x ≠ vf) (hy : y ≠ vf) (n : BitVec 4) (s : State) :
    ∃ t, exec (.drw x y n) s = .next t ∧ PcMoved 2 s t ∧ Keeps [.disp, .reg vf] s t ∧
      DrawnAt s t (s.getV x).toNat (s.getV y).toNat n.toNat := by
  refine ⟨_, exec_drw_eq x y n s, pcMoved_advance (drawSprite_mem_pc _ x y n s).2,
    (drawSprite_keeps _ x y n s).advance, ?_⟩
  rw [drawSprite_eq_beforeClear hx hy]
  obtain ⟨hcell, hflag⟩ := drawnAt_beforeClear x y n s
  exact ⟨hcell, hflag⟩

/-- Settles O48: with X and Y not 15 the draw is the one from the registers' own values, pixel by pixel. -/
theorem drawXorsSprite : Obligations.DrawXorsSprite := by
  refine fun x y n s hx hy => ⟨decodeWord_drw x y n, ?_⟩
  obtain ⟨t, hexec, hpc, hkeeps, hcell, hflag⟩ := drw_spec hx hy n s
  exact ⟨t, hexec, hpc, hkeeps, hcell, hflag⟩

/-- The flag is 0 after the clear, and a plot leaves it or makes it 1 (R181). -/
theorem drawSprite_vf (m : DrawCoordRead) (x y n : BitVec 4) (s : State) :
    (drawSprite m x y n s).getV vf = 0#8 ∨ (drawSprite m x y n s).getV vf = 1#8 := by
  refine drawRows_ind (fun t => t.getV vf = 0#8 ∨ t.getV vf = 1#8) (fun px py t ht => ?_) _ x y _ _
    (.inl (by rw [getV_setFlag, if_pos rfl]))
  rw [plot_vf]
  split_ifs
  · exact .inr rfl
  · exact ht

/-- Settles O49: the reading in force for X and Y gives the draw under the open parameter, and every reading gives the first
one when neither is 15. -/
theorem drawCompletesUnderEveryReading : Obligations.DrawCompletesUnderEveryReading := by
  refine fun x y n s => ⟨exec_drw_eq x y n s, fun m => ⟨drawSprite_keeps m x y n s, drawSprite_vf m x y n s⟩, ?_⟩
  intro hx hy m m'
  rw [drawSprite_eq_beforeClear hx hy n s m, drawSprite_eq_beforeClear hx hy n s m']

/-! ## The coordinates read at each pixel, with a collision (R185) -/

/-- What is unchanged one way is unchanged the other way. -/
theorem Keeps.symm {ws : List Part} {s t : State} (h : Keeps ws s t) : Keeps ws t s where
  reg r e := (h.reg r e).symm
  i e := (h.i e).symm
  stack e := (h.stack e).symm
  dt e := (h.dt e).symm
  st e := (h.st e).symm
  keys e := (h.keys e).symm
  disp e := (h.disp e).symm
  halted e := (h.halted e).symm
  draws e := (h.draws e).symm
  byte a e := (h.byte a e).symm

/-- A second flag write is the one that counts. -/
theorem setFlag_setFlag (s : State) (f g : Byte) : (s.setFlag f).setFlag g = s.setFlag g := by
  simp only [State.setFlag, State.setV, Vector.set_set]

theorem keeps_setFlag (s : State) (f : Byte) : Keeps [.disp, .reg vf] s (s.setFlag f) := by
  constructor <;> simp +contextual [getV_setFlag]

/-- The pixels after pixel `k`. -/
def pixelsAfter (k n : Nat) : List Nat := (List.range (8 * n - (k + 1))).map (k + 1 + ·)

theorem range_eq_append_pixelsAfter {k n : Nat} (hk : k < 8 * n) :
    List.range (8 * n) = List.range (k + 1) ++ pixelsAfter k n := by
  rw [pixelsAfter, ← List.range_add, Nat.add_sub_of_le hk]

theorem mem_pixelsAfter {j k n : Nat} : j ∈ pixelsAfter k n ↔ j < 8 * n ∧ k < j := by
  simp only [pixelsAfter, List.mem_map, List.mem_range]
  constructor
  · rintro ⟨i, hi, rfl⟩
    omega
  · rintro ⟨hj, hkj⟩
    exact ⟨j - (k + 1), by omega, by omega⟩

theorem pixelsAfter_nodup (k n : Nat) : (pixelsAfter k n).Nodup :=
  List.nodup_range.map (add_right_injective (k + 1))

/-- Up to and with the first collision, `k`, the registers are those that the clear left. -/
theorem drawPixels_live_to_collision (x y : RegNum) {s : State} {k : Nat}
    (hfree : ∀ j < k, pixelCollides s (coordsNow s x y).1 (coordsNow s x y).2 j = false) :
    drawPixels none x y (List.range (k + 1)) s = drawPixels (some (coordsNow s x y)) x y (List.range (k + 1)) s := by
  have hfree' : ∀ j ∈ List.range k, pixelCollides s (coordsNow s x y).1 (coordsNow s x y).2 j = false :=
    fun j hj => hfree j (List.mem_range.mp hj)
  have hnone : ¬ (List.range k).any (pixelCollides s (coordsNow s x y).1 (coordsNow s x y).2) = true := by
    simpa only [List.any_eq_true, not_exists, not_and, Bool.not_eq_true] using hfree'
  have hvf := (drawPixels_vf (coordsNow s x y).1 (coordsNow s x y).2 x y List.nodup_range s).trans (if_neg hnone)
  have hcoords := coordsNow_of_keeps (x := x) (y := y) (drawPixels_keeps _ x y (List.range k) s) (.inr hvf)
  rw [List.range_succ, drawPixels_append, drawPixels_append,
    drawPixels_live_of_steady x y List.nodup_range (.inr (.inr hfree'))]
  exact congrArg (fun c => drawPixel (some c) x y k _) hcoords

/-- The whole run with a first collision at pixel `k`: from there on a register that is the flag counts 1. -/
theorem drawPixels_live_of_collision (x y : RegNum) {s : State} {k n : Nat} (hk : k < 8 * n)
    (hcol : pixelCollides s (coordsNow s x y).1 (coordsNow s x y).2 k = true)
    (hfree : ∀ j < k, pixelCollides s (coordsNow s x y).1 (coordsNow s x y).2 j = false) :
    let u := drawPixels (some (coordsNow s x y)) x y (List.range (k + 1)) s
    u.getV vf = 1#8 ∧ drawPixels none x y (List.range (8 * n)) s =
      drawPixels (some (coordsNow (s.setFlag 1#8) x y)) x y (pixelsAfter k n) u := by
  intro u
  have hkeeps : Keeps [.disp, .reg vf] s u := drawPixels_keeps _ x y _ s
  have hvf : u.getV vf = 1#8 := by
    refine (drawPixels_vf _ _ x y List.nodup_range s).trans (if_pos ?_)
    exact List.any_eq_true.mpr ⟨k, List.mem_range.mpr (Nat.lt_succ_self k), hcol⟩
  have hcoords : coordsNow u x y = coordsNow (s.setFlag 1#8) x y :=
    coordsNow_of_keeps ((keeps_setFlag s 1#8).symm.trans hkeeps) (.inr (hvf.trans (getV_setV_self s vf 1#8).symm))
  refine ⟨hvf, ?_⟩
  rw [range_eq_append_pixelsAfter hk, drawPixels_append, drawPixels_live_to_collision x y hfree,
    drawPixels_live_of_steady x y (pixelsAfter_nodup k n) (.inr (.inl hvf)), hcoords]

/-- A sprite drawn with the coordinates read at each pixel, when its first collision is pixel `k`: the pixels up to `k` at
`(x₁, y₁)`, the others at `(x₂, y₂)`, and the flag ends 1. -/
theorem drawSprite_live_of_collision (x y n : BitVec 4) (s : State) {x₁ y₁ x₂ y₂ k : Nat} (hk : k < 8 * n.toNat)
    (h₁ : coordsNow (s.setFlag 0#8) x y = (x₁, y₁)) (h₂ : coordsNow (s.setFlag 1#8) x y = (x₂, y₂))
    (hcol : pixelCollides s x₁ y₁ k = true) (hfree : ∀ j < k, pixelCollides s x₁ y₁ j = false) :
    (∀ px < 64, ∀ py < 32, cellAt (drawSprite .live x y n s).disp px py =
      (cellAt s.disp px py ^^ spriteCoversPart (fun j => j ≤ k) s x₁ y₁ n.toNat px py ^^
        spriteCoversPart (fun j => k < j) s x₂ y₂ n.toNat px py)) ∧
    (drawSprite .live x y n s).getV vf = 1#8 := by
  obtain ⟨hvf, hrun⟩ := drawPixels_live_of_collision (s := s.setFlag 0#8) x y hk (by rw [h₁]; exact hcol)
    (by rw [h₁]; exact hfree)
  rw [setFlag_setFlag, h₁, h₂] at hrun
  rw [h₁] at hvf
  have hkeeps : Keeps [.disp, .reg vf] s (drawPixels (some (x₁, y₁)) x y (List.range (k + 1)) (s.setFlag 0#8)) :=
    (keeps_setFlag s 0#8).trans (drawPixels_keeps _ x y _ _)
  have hlive : drawSprite .live x y n s = _ := (drawSprite_eq_drawPixels .live x y n s).trans hrun
  rw [hlive]
  refine ⟨fun px hx py hy => ?_, ?_⟩
  · have hhits : pixelHits (drawPixels (some (x₁, y₁)) x y (List.range (k + 1)) (s.setFlag 0#8)) x₂ y₂ px py =
        pixelHits s x₂ y₂ px py := funext fun j => pixelHits_of_keeps hkeeps x₂ y₂ px py j
    rw [drawPixels_cell x₂ y₂ x y (pixelsAfter_nodup k n.toNat) _ hx hy, hhits,
      any_pixelHits_eq (part := fun j => k < j) (n := n.toNat) hx hy fun j => by simp [mem_pixelsAfter],
      drawPixels_cell x₁ y₁ x y List.nodup_range _ hx hy,
      any_pixelHits_eq (part := fun j => j ≤ k) (n := n.toNat) hx hy fun j => by
        rw [List.mem_range, decide_eq_true_eq]; omega]
    rfl
  · rw [drawPixels_vf x₂ y₂ x y (pixelsAfter_nodup k n.toNat), hvf, ite_self]

/-- Settles O50: the two readings that read once draw from a fixed top left; the third is steady without a collision, and
with one it is the two runs before and after it. -/
theorem drawWithFlagCoordinate : Obligations.DrawWithFlagCoordinate := by
  intro x y n s x₁ y₁ x₂ y₂
  have h₁ : coordsNow (s.setFlag 0#8) x y = (x₁, y₁) := coordsNow_setFlag x y 0#8 s
  have h₂ : coordsNow (s.setFlag 1#8) x y = (x₂, y₂) := coordsNow_setFlag x y 1#8 s
  obtain ⟨hcell, hflag⟩ := drawnAt_beforeClear x y n s
  obtain ⟨hcell', hflag'⟩ := drawnAt_afterClear x y n s
  refine ⟨hcell, hflag, hcell', hflag', fun hnone => ?_, fun k hk hcol hfree => ?_⟩
  · refine drawSprite_live_of_steady (.inr (.inr ?_))
    rw [h₁]
    rw [← any_pixelCollides_eq, List.any_eq_false] at hnone
    exact fun k hk => Bool.eq_false_iff.mpr (hnone k hk)
  · exact drawSprite_live_of_collision x y n s hk h₁ h₂ hcol hfree

/-! ## Drawing twice (R186) -/

theorem spriteCovers_of_keeps {s t : State} (h : Keeps [.disp, .reg vf] s t) (x0 y0 n px py : Nat) :
    spriteCovers t x0 y0 n px py = spriteCovers s x0 y0 n px py := by
  simp only [spriteCovers, spriteCoversPart, spritePixel_of_keeps h]

theorem spriteCollides_eq_true_iff {s : State} {x0 y0 n : Nat} : spriteCollides s x0 y0 n = true ↔
    ∃ py < 32, ∃ px < 64, spriteCovers s x0 y0 n px py = true ∧ cellAt s.disp px py = true := by
  simp only [spriteCollides, List.any_eq_true, List.mem_range, Bool.and_eq_true, dispW, dispH]

/-- Settles O51: the second sprite covers the same cells, so each is flipped twice, and it collides where the first one lit
a cell. -/
theorem drawTwiceRestores : Obligations.DrawTwiceRestores := by
  intro x y n s hx hy
  obtain ⟨t, hexec, -, hkeeps, hcell, -⟩ := drw_spec hx hy n s
  obtain ⟨u, hexec', -, -, hcell', hflag'⟩ := drw_spec hx hy n t
  have hcoords : coordsNow t x y = coordsNow s x y := coordsNow_of_keeps hkeeps (.inl ⟨hx, hy⟩)
  obtain ⟨hvx, hvy⟩ := Prod.mk.inj hcoords
  rw [hvx, hvy] at hcell' hflag'
  have hcovers := spriteCovers_of_keeps hkeeps (s.getV x).toNat (s.getV y).toNat n.toNat
  refine ⟨t, u, hexec, hexec', fun px hpx py hpy => ?_, ?_, ?_⟩
  · rw [hcell' px hpx py hpy, hcell px hpx py hpy, hcovers, Bool.xor_assoc, Bool.xor_self, Bool.xor_false]
  · rw [hflag']
    split_ifs
    · exact .inr rfl
    · exact .inl rfl
  · have hlit : u.getV vf = 1#8 ↔ spriteCollides t (s.getV x).toNat (s.getV y).toNat n.toNat = true := by
      rw [hflag']
      split_ifs with h <;> simp [h]
    rw [hlit, spriteCollides_eq_true_iff]
    constructor
    · rintro ⟨py, hpy, px, hpx, hcov, hon⟩
      rw [hcovers] at hcov
      refine ⟨px, hpx, py, hpy, ?_, hcov⟩
      simpa [hcell px hpx py hpy, hcov] using hon
    · rintro ⟨px, hpx, py, hpy, hoff, hcov⟩
      refine ⟨py, hpy, px, hpx, (hcovers px py).trans hcov, ?_⟩
      rw [hcell px hpx py hpy, hoff, hcov]
      rfl

end Sys2Proof.Machine
end
